-- ==== Sys2Proof/Word.lean ====
section
/-! DEFINITION. The words of the hardware: 32-bit words and 8-bit bytes, both unsigned (00_scope.md R9), and the
shapes of the register files of 10_state.md R20 made of them. -/

namespace Sys2Proof

/-- A word is a 32-bit unsigned integer (00_scope.md R9). -/
abbrev Word := BitVec 32

/-- A byte is an 8-bit unsigned integer (00_scope.md R9). -/
abbrev Byte := BitVec 8

/-- A block is 64 bytes (00_scope.md R7, R16). -/
abbrev Block := Vector Byte 64

/-- The hash state is 8 words (00_scope.md R7). -/
abbrev HashState := Vector Word 8

/-- The message schedule is 64 words (00_scope.md R7). -/
abbrev Schedule := Vector Word 64

/-- The digest is 32 bytes (00_scope.md R7). -/
abbrev Digest := Vector Byte 32

/-- The output string is 64 character codes (00_scope.md R7). -/
abbrev HexString := Vector Byte 64

end Sys2Proof
end

