-- ==== Sys2Proof/Syntax.lean ====
section
/-! DEFINITION. The nine commands, one constructor per row of the opcode table (30_encoding.md R65). Every operand has
exactly the width of its field (R64), so no operand out of its range can be written (20_memory.md R41). -/

namespace Sys2Proof

/-- A command, the "instruction" of this hardware (00_scope.md R17). -/
inductive Instr where
  /-- `NOP` (45_system.md R141). -/
  | nop
  /-- `INIT` (43_accumulate.md R116). -/
  | init
  /-- `PUSH b` (40_padding.md R83). -/
  | push (b : Byte)
  /-- `FINAL le` (40_padding.md R85); `le` is the source's `little_endian`. -/
  | final (le : Bool)
  /-- `BLOCK` (42_compression.md R107). -/
  | block
  /-- `DIGEST le` (44_serialize_hex.md R134). -/
  | digest (le : Bool)
  /-- `RDHEX i` (44_serialize_hex.md R136); `i` indexes HEX. -/
  | rdhex (i : BitVec 6)
  /-- `RDSTAT` (45_system.md R142). -/
  | rdstat
  /-- `LDB i, b` (41_schedule.md R96); `i` indexes BUF. -/
  | ldb (i : BitVec 6) (b : Byte)
  deriving DecidableEq, Repr

end Sys2Proof
end

