-- ==== Sys2Proof/WellFormed.lean ====
section
/-! DEFINITION. Which instructions are well-formed. The assembler writes operands as numbers of any size, and one out of
its range "is an error of the assembler; it has no encoding" (30_encoding.md R70). `Source` is an instruction so
written; `Source.wellFormed` is the range check of R64; `Source.toInstr` is the command it stands for, if it passes. -/

namespace Sys2Proof

/-- An instruction as the assembler reads it, its operands plain numbers (30_encoding.md R70). -/
inductive Source where
  | nop
  | init
  | push (b : Nat)
  | final (le : Nat)
  | block
  | digest (le : Nat)
  | rdhex (i : Nat)
  | rdstat
  | ldb (i : Nat) (b : Nat)
  deriving DecidableEq, Repr

/-- The operand ranges of 30_encoding.md R64: a byte is 0..255, an index 0..63, `le` 0..1. -/
def Source.wellFormed : Source → Bool
  | .nop | .init | .block | .rdstat => true
  | .push b => decide (b ≤ 255)
  | .final le | .digest le => decide (le ≤ 1)
  | .rdhex i => decide (i ≤ 63)
  | .ldb i b => decide (i ≤ 63) && decide (b ≤ 255)

/-- The command with these operand values, each taken as its unsigned field (R64). -/
def Source.truncated : Source → Instr
  | .nop => .nop
  | .init => .init
  | .push b => .push (BitVec.ofNat 8 b)
  | .final le => .final (le == 1)
  | .block => .block
  | .digest le => .digest (le == 1)
  | .rdhex i => .rdhex (BitVec.ofNat 6 i)
  | .rdstat => .rdstat
  | .ldb i b => .ldb (BitVec.ofNat 6 i) (BitVec.ofNat 8 b)

/-- The command a source instruction stands for; none where an operand is out of its range (R70). -/
def Source.toInstr (x : Source) : Option Instr :=
  if x.wellFormed then some x.truncated else none

/-- A command written with its operands as numbers. -/
def Instr.toSource : Instr → Source
  | .nop => .nop
  | .init => .init
  | .push b => .push b.toNat
  | .final le => .final le.toNat
  | .block => .block
  | .digest le => .digest le.toNat
  | .rdhex i => .rdhex i.toNat
  | .rdstat => .rdstat
  | .ldb i b => .ldb i.toNat b.toNat

/-- An instruction is well-formed when its operands, as numbers, are in the ranges of R64. The types of `Instr` make
every instruction so (`Laws.WellFormed`). -/
def Instr.wellFormed (i : Instr) : Bool := i.toSource.wellFormed

end Sys2Proof
end

