-- ==== Sys2Proof/Decode.lean ====
section
/-! DEFINITION. Command words: the decoder of 30_encoding.md R66, total on all 65536 words, and the encoder of R65.
The opcode map R65 stands here too, as rows of mask and match. -/

namespace Sys2Proof

/-- The nine commands without their operands: the mnemonic column of 30_encoding.md R65. -/
inductive Opcode where
  | nop | init | push | final | block | digest | rdhex | rdstat | ldb
  deriving DecidableEq, Repr

/-- The mnemonic of a command. -/
def Instr.opcode : Instr → Opcode
  | .nop => .nop
  | .init => .init
  | .push _ => .push
  | .final _ => .final
  | .block => .block
  | .digest _ => .digest
  | .rdhex _ => .rdhex
  | .rdstat => .rdstat
  | .ldb _ _ => .ldb

/-- One row of the opcode map: a word is this command when `(word and mask) = value` (30_encoding.md R65). -/
structure OpcodeRow where
  opcode : Opcode
  mask   : BitVec 16
  value  : BitVec 16
  deriving DecidableEq, Repr

/-- The opcode map (30_encoding.md R65). -/
def opcodeMap : List OpcodeRow := [
  ⟨.nop,    0xFFFF, 0x0000⟩,
  ⟨.init,   0xFFFF, 0x1000⟩,
  ⟨.push,   0xFF00, 0x2000⟩,
  ⟨.final,  0xFFFE, 0x3000⟩,
  ⟨.block,  0xFFFF, 0x4000⟩,
  ⟨.digest, 0xFFFE, 0x5000⟩,
  ⟨.rdhex,  0xFFC0, 0x6000⟩,
  ⟨.rdstat, 0xFFFF, 0x7000⟩,
  ⟨.ldb,    0xC000, 0xC000⟩]

/-- A row covers the words whose masked bits are its match. -/
def OpcodeRow.covers (r : OpcodeRow) (c : BitVec 16) : Prop := c &&& r.mask = r.value

/-- Why a word is reserved (30_encoding.md R67): it lies in the unassigned quarter, or a bit that its major opcode's
format requires to be 0 is set. The core answers both alike (60_exceptions.md R153). -/
inductive Reserved where
  | unassignedQuarter
  | zeroBitsSet (op : BitVec 4)
  deriving DecidableEq, Repr

/-- What a command word is: a command, or reserved and for what reason. -/
inductive Decoded where
  | legal (i : Instr)
  | illegal (why : Reserved)
  deriving DecidableEq, Repr

/-- The decoder, in the order of the algorithm of 30_encoding.md R66. `c.extractLsb' lo n` are the `n` bits of `c`
from bit `lo` up. -/
def decode (c : BitVec 16) : Decoded :=
  let op := c.extractLsb' 12 4
  if c.extractLsb' 14 2 = 0b11 then .legal (.ldb (c.extractLsb' 8 6) (c.extractLsb' 0 8))
  else if c.extractLsb' 14 2 = 0b10 then .illegal .unassignedQuarter
  else if op = 0 ∧ c.extractLsb' 0 12 = 0 then .legal .nop
  else if op = 1 ∧ c.extractLsb' 0 12 = 0 then .legal .init
  else if op = 2 ∧ c.extractLsb' 8 4 = 0 then .legal (.push (c.extractLsb' 0 8))
  else if op = 3 ∧ c.extractLsb' 1 11 = 0 then .legal (.final (c.getLsbD 0))
  else if op = 4 ∧ c.extractLsb' 0 12 = 0 then .legal .block
  else if op = 5 ∧ c.extractLsb' 1 11 = 0 then .legal (.digest (c.getLsbD 0))
  else if op = 6 ∧ c.extractLsb' 6 6 = 0 then .legal (.rdhex (c.extractLsb' 0 6))
  else if op = 7 ∧ c.extractLsb' 0 12 = 0 then .legal .rdstat
  else .illegal (.zeroBitsSet op)

/-- The word of a command: its match of 30_encoding.md R65 and its fields at the places of the formats of R63. -/
def encode : Instr → BitVec 16
  | .nop => 0x0000#16
  | .init => 0x1000#16
  | .push b => 0x2000#16 ||| b.setWidth 16
  | .final le => 0x3000#16 ||| (BitVec.ofBool le).setWidth 16
  | .block => 0x4000#16
  | .digest le => 0x5000#16 ||| (BitVec.ofBool le).setWidth 16
  | .rdhex i => 0x6000#16 ||| i.setWidth 16
  | .rdstat => 0x7000#16
  | .ldb i b => 0xC000#16 ||| i.setWidth 16 <<< 8 ||| b.setWidth 16

/-- The command the decoder reads from the `nbits`-bit number `w`, the bits above `nbits` being 0. Every command is one
16-bit word (30_encoding.md R62), so a number that does not fit in 16 bits is none. -/
def decodeTableWord (nbits w : Nat) : Option Instr :=
  let v := w % 2 ^ nbits
  if v < 2 ^ 16 then
    match decode (BitVec.ofNat 16 v) with
    | .legal i => some i
    | .illegal _ => none
  else none

end Sys2Proof
end

