-- ==== Sys2Proof/Machine/Bits.lean ====
section
/-! DEFINITION. Bytes of words and words of bytes (00_scope.md R10, R11), and the word operations the rest is built
from (R12). Addition, `xor`, `and`, `not` and the logical right shift on words are those of `BitVec 32`, which wrap and
fill with zeros as R12 says. -/

namespace Sys2Proof.Machine

/-- `byte_k(w) = w[31-8k : 24-8k]` for k in 0..3: byte 0 is the most significant one (00_scope.md R10). -/
def byteOf (w : Word) (k : Nat) : Byte := w.extractLsb' (24 - 8 * k) 8

/-- `be32`: a word from four bytes, most significant first (00_scope.md R11). -/
def be32 (b0 b1 b2 b3 : Byte) : Word :=
  b0.setWidth 32 <<< 24 ||| b1.setWidth 32 <<< 16 ||| b2.setWidth 32 <<< 8 ||| b3.setWidth 32

/-- `be64bytes`: the 8 bytes of a 64-bit value, most significant first (00_scope.md R11). -/
def be64bytes (l : BitVec 64) : Vector Byte 8 := Vector.ofFn fun j => l.extractLsb' (56 - 8 * j.val) 8

/-- `rotr(x, n)`, for 0 < n < 32 (00_scope.md R12). -/
def rotr (x : Word) (n : Nat) : Word := x >>> n ||| x <<< (32 - n)

end Sys2Proof.Machine
end

