-- ==== Sys2Proof/Machine/State.lean ====
section
/-! DEFINITION. The state of the machine as plain data: the core's state, exactly the fields of 10_state.md R20, and
the two lists that stand for its ports, the host's coming moves and the responses it has received (60_exceptions.md
R163). Reset (R35, R170) is here too. -/

namespace Sys2Proof.Machine

/-- The working variables a..h (10_state.md R22). -/
structure Vars where
  a : Word
  b : Word
  c : Word
  d : Word
  e : Word
  f : Word
  g : Word
  h : Word
  deriving DecidableEq, Repr

/-- The complete state of the core, each field under the spec's own name (10_state.md R20). -/
structure CoreState where
  /-- H[0..7], the hash state (R21). -/
  h    : HashState
  /-- a..h, the working variables (R22). -/
  vars : Vars
  /-- W[0..63], the message schedule (R28). -/
  w    : Schedule
  /-- BUF[0..63], the block buffer (R29). -/
  buf  : Block
  /-- N, the fill pointer of BUF, 0..63 (R26). -/
  n    : BitVec 6
  /-- LEN, the message bits pushed since INIT, modulo 2^64 (R27). -/
  len  : BitVec 64
  /-- DG[0..31], the digest bytes (R30). -/
  dg   : Digest
  /-- HEX[0..63], the output string (R31). -/
  hex  : HexString
  /-- HEXV, "hex valid" (R24). -/
  hexv : Bool
  /-- FIN, "finalized" (R24). -/
  fin  : Bool
  deriving DecidableEq, Repr

/-- The reset state (10_state.md R35): H is H0, everything else is zero. -/
def CoreState.reset : CoreState where
  h    := Config.initialHash
  vars := ⟨0, 0, 0, 0, 0, 0, 0, 0⟩
  w    := Vector.replicate 64 0
  buf  := Vector.replicate 64 0
  n    := 0
  len  := 0
  dg   := Vector.replicate 32 0
  hex  := Vector.replicate 64 0
  hexv := false
  fin  := false

/-- What the host can do to the core (60_exceptions.md R163). -/
inductive HostAction where
  /-- Present a command word; the core accepts and executes it (30_encoding.md R60). -/
  | command (c : BitVec 16)
  /-- Assert `rst` (70_reset_and_hazards.md R170). -/
  | reset
  /-- Do nothing. -/
  | idle
  deriving DecidableEq, Repr

/-- A response `{ERR, DATA}` (30_encoding.md R69). -/
structure Response where
  err  : Bool
  data : Byte
  deriving DecidableEq, Repr

/-- The three errors (60_exceptions.md R152). -/
inductive ErrorCode where
  /-- The word is no command (R153). -/
  | illegal
  /-- RDHEX with HEXV = 0 (R154). -/
  | nohex
  /-- PUSH or FINAL with FIN = 1 (R155). -/
  | seq
  deriving DecidableEq, Repr

/-- Reasons for the machine to stop. There are none: "No command makes the core trap or stop" (60_exceptions.md R162).
So the type has no constructor, nobody raises a fault, and that is the spec's own word, not a safe or unsafe choice. -/
inductive Fault where
  deriving DecidableEq, Repr

/-- Reasons for the model to refuse a command. The three error responses of the spec are no refusals of the model: the
core answers them and goes on (60_exceptions.md R150). -/
inductive Refusal where
  /-- The instruction has no meaning in the model yet. Raised by an arm of `exec` that has none, and there is no such
  arm, so it is never raised; it would be safe, as it stops the run. -/
  | notModelled (mnemonic : String)
  deriving DecidableEq, Repr

/-- The machine: the core, and its two ports as lists. -/
structure State where
  /-- The core's own state (10_state.md R20). -/
  core      : CoreState
  /-- DESIGN CHOICE (log entry 1): the host's coming moves, the next one first (60_exceptions.md R163). -/
  inputs    : List HostAction
  /-- DESIGN CHOICE (log entry 2): the responses the host has received, the oldest first (60_exceptions.md R163). -/
  responses : List Response
  deriving DecidableEq, Repr

/-- The machine right after reset (10_state.md R35), no move placed yet and no response given (log entries 1 and 2). -/
def State.reset : State where
  core      := CoreState.reset
  inputs    := []
  responses := []

end Sys2Proof.Machine
end

