-- ==== Sys2Proof/Machine/Ops.lean ====
section
/-! DEFINITION. The shared operations: reads and writes of the 64-byte arrays (00_scope.md R13, 20_memory.md R40, R41),
the write of each piece of state, and the two ways a command ends, with its response or refused with an error
(30_encoding.md R69, 60_exceptions.md R150, R151). A refusal saves nothing, so there is no return from one (R157). -/

namespace Sys2Proof.Machine

/-- `x[i]` for a 64-element array and a 6-bit index: every index is in range (20_memory.md R41). -/
def readAt {α : Type} (x : Vector α 64) (i : BitVec 6) : α := x[i.toNat]'i.isLt

/-- `x[i] <- v` for a 64-element array and a 6-bit index (00_scope.md R13). -/
def writeAt {α : Type} (x : Vector α 64) (i : BitVec 6) (v : α) : Vector α 64 := x.set i.toNat v i.isLt

/-- `MemRead(BUF + i, 4)`: four bytes as one big-endian word (00_scope.md R13). -/
def memRead4 (x : Block) (i : Nat) (h : i + 3 < 64) : Word := be32 x[i] x[i + 1] x[i + 2] x[i + 3]

/-- `MemWrite(BUF + i, n, v)` where `v` has the `n` bytes `bytes`, most significant first (00_scope.md R13). -/
def memWrite {n : Nat} (x : Block) (i : Nat) (bytes : Vector Byte n) : Block :=
  Vector.ofFn fun j => if _ : i ≤ j.val ∧ j.val < i + n then bytes[j.val - i] else x[j.val]

/-- `for j in lo..hi: BUF[j] <- 0x00`; empty when `hi < lo` (00_scope.md R13). -/
def zeroFill (x : Block) (lo hi : Nat) : Block :=
  Vector.ofFn fun j => if lo ≤ j.val ∧ j.val ≤ hi then 0 else x[j.val]

/-! The writes of each piece of state (10_state.md R20, 00_scope.md R13). Every command is built from these, so that what
a write leaves is proved once (Laws/State.lean). -/

/-- `H[0..7] <- v`. -/
def CoreState.setH (c : CoreState) (v : HashState) : CoreState := { c with h := v }

/-- `(a..h) <- v`. -/
def CoreState.setVars (c : CoreState) (v : Vars) : CoreState := { c with vars := v }

/-- `W[0..63] <- v`. -/
def CoreState.setW (c : CoreState) (v : Schedule) : CoreState := { c with w := v }

/-- `BUF[0..63] <- v`. -/
def CoreState.setBuf (c : CoreState) (v : Block) : CoreState := { c with buf := v }

/-- `N <- v`. -/
def CoreState.setN (c : CoreState) (v : BitVec 6) : CoreState := { c with n := v }

/-- `LEN <- v`. -/
def CoreState.setLen (c : CoreState) (v : BitVec 64) : CoreState := { c with len := v }

/-- `DG[0..31] <- v`. -/
def CoreState.setDg (c : CoreState) (v : Digest) : CoreState := { c with dg := v }

/-- `HEX[0..63] <- v`. -/
def CoreState.setHex (c : CoreState) (v : HexString) : CoreState := { c with hex := v }

/-- `HEXV <- v`. -/
def CoreState.setHexv (c : CoreState) (v : Bool) : CoreState := { c with hexv := v }

/-- `FIN <- v`. -/
def CoreState.setFin (c : CoreState) (v : Bool) : CoreState := { c with fin := v }

/-- The DATA byte of an error (60_exceptions.md R152). -/
def ErrorCode.code : ErrorCode → Byte
  | .illegal => 0x01
  | .nohex => 0x02
  | .seq => 0x03

/-- A response as the 9 bits of the port: `rsp = {ERR, DATA[7:0]}`, the number `256 * ERR + DATA` (30_encoding.md R60,
R69). -/
def Response.bits (r : Response) : BitVec 9 := (BitVec.ofBool r.err).setWidth 9 <<< 8 ||| r.data.setWidth 9

/-- The core answers a command. -/
def respond (r : Response) (s : State) : State := { s with responses := s.responses ++ [r] }

/-- `raise Err(e)`: the command is refused, NO piece of the core's state changes, and the response is `{1, code}`
(60_exceptions.md R150). -/
def raiseErr (e : ErrorCode) (s : State) : State := respond ⟨true, e.code⟩ s

/-- `rsp <- d`: the command completes with the core's new state `c` and the response `{0, d}` (60_exceptions.md
R151). -/
def complete (c : CoreState) (d : Byte) (s : State) : State := respond ⟨false, d⟩ { s with core := c }

end Sys2Proof.Machine
end

