-- ==== Sys2Proof/Machine/Flags.lean ====
section
/-! DEFINITION. The two flags HEXV and FIN (10_state.md R24) and the status byte made of them and of N (R25). No
operation has a carry, overflow, zero or sign flag (R24). -/

namespace Sys2Proof.Machine

/-- `HEXV <- 1` (44_serialize_hex.md R132). -/
def CoreState.markHexValid (c : CoreState) : CoreState := c.setHexv true

/-- `FIN <- 1` (40_padding.md R85). -/
def CoreState.markFinalized (c : CoreState) : CoreState := c.setFin true

/-- `FIN <- 0; HEXV <- 0` (43_accumulate.md R116). -/
def CoreState.clearFlags (c : CoreState) : CoreState := (c.setFin false).setHexv false

/-- STATUS: bit 7 HEXV, bit 6 FIN, bits 5:0 N (10_state.md R25). -/
def CoreState.status (c : CoreState) : Byte :=
  (BitVec.ofBool c.hexv).setWidth 8 <<< 7 ||| (BitVec.ofBool c.fin).setWidth 8 <<< 6 ||| c.n.setWidth 8

end Sys2Proof.Machine
end

