-- ==== Sys2Proof/Machine/Accumulate.lean ====
section
/-! DEFINITION. ACC, the state accumulator (43_accumulate.md), and its command INIT. The chaining of blocks, R118, is in
Hash.lean, after the compression function it chains. -/

namespace Sys2Proof.Machine

/-- `Accum`: the working variables are added into the hash state, word by word (43_accumulate.md R117). -/
def accum (hin : HashState) (v : Vars) : HashState := #v[
  hin[0] + v.a, hin[1] + v.b, hin[2] + v.c, hin[3] + v.d, hin[4] + v.e, hin[5] + v.f, hin[6] + v.g, hin[7] + v.h]

/-- The hardware operation AccumOp (43_accumulate.md R117). -/
def CoreState.accumOp (c : CoreState) : CoreState := c.setH (accum c.h c.vars)

/-- `H <- H0; N <- 0; LEN <- 0; FIN <- 0; HEXV <- 0`; BUF, W, a..h, DG, HEX stay (43_accumulate.md R116). -/
def CoreState.startTransaction (c : CoreState) : CoreState :=
  (((c.setH Config.initialHash).setN 0).setLen 0).clearFlags

/-- `INIT` (43_accumulate.md R116). -/
def execInit (s : State) : Host.Outcome State Fault Refusal :=
  .next (complete s.core.startTransaction 0x00 s)

end Sys2Proof.Machine
end

