-- ==== Sys2Proof/Machine/Operands.lean ====
section
/-! DEFINITION. What the operands reach (30_encoding.md R64). The byte `b` and the flag `le` are used as they stand; the
index `i` of RDHEX reaches HEX, the index `i` of LDB reaches BUF, and PUSH and FINAL reach BUF at the fill pointer N
(20_memory.md R40, R41). -/

namespace Sys2Proof.Machine

/-- `HEX[i]`, the operand RDHEX returns (44_serialize_hex.md R136). -/
def CoreState.hexAt (c : CoreState) (i : BitVec 6) : Byte := readAt c.hex i

/-- `BUF[i] <- b`, at an index the host names (41_schedule.md R96). -/
def CoreState.loadByte (c : CoreState) (i : BitVec 6) (b : Byte) : CoreState := c.setBuf (writeAt c.buf i b)

/-- `BUF[N] <- b`, at the fill pointer (40_padding.md R83, R85). -/
def CoreState.storeNext (c : CoreState) (b : Byte) : CoreState := c.setBuf (writeAt c.buf c.n b)

end Sys2Proof.Machine
end

