-- ==== Sys2Proof/Machine/Schedule.lean ====
section
/-! DEFINITION. SCHED, the schedule expander (41_schedule.md), and its command LDB. -/

namespace Sys2Proof.Machine

/-- `ssig0`, the source's σ0; its third term is a shift (41_schedule.md R91). -/
def ssig0 (x : Word) : Word := rotr x 7 ^^^ rotr x 18 ^^^ x >>> 3

/-- `ssig1`, the source's σ1; its third term is a shift (41_schedule.md R91). -/
def ssig1 (x : Word) : Word := rotr x 17 ^^^ rotr x 19 ^^^ x >>> 10

/-- `SchedLoad`: `W[j] <- MemRead(BUF + 4j, 4)` for j in 0..15; the other words stay (41_schedule.md R92). -/
def schedLoad (b : Block) (w : Schedule) : Schedule :=
  (List.finRange 16).foldl (fun w j => w.set j.val (memRead4 b (4 * j.val) (by omega))) w

/-- `W[i] <- ssig0(W[i-15]) + ssig1(W[i-2]) + W[i-7] + W[i-16]`, where i = 16 + k (41_schedule.md R93). -/
def schedStep (w : Schedule) (k : Fin 48) : Schedule :=
  let i := 16 + k.val
  w.set i (ssig0 w[i - 15] + ssig1 w[i - 2] + w[i - 7] + w[i - 16])

/-- `SchedExpand`: the words 16..63, in increasing order (41_schedule.md R93). -/
def schedExpand (w : Schedule) : Schedule := (List.finRange 48).foldl schedStep w

/-- `Sched(B)`, the whole schedule of a block (41_schedule.md R94). It is written in full, so the words it is written
over do not matter; they are zero here (log entry 5). -/
def sched (b : Block) : Schedule := schedExpand (schedLoad b (Vector.replicate 64 0))

/-- The hardware operation SchedLoad, from BUF into W (41_schedule.md R92). -/
def CoreState.schedLoadOp (c : CoreState) : CoreState := c.setW (schedLoad c.buf c.w)

/-- The hardware operation SchedExpand, within W (41_schedule.md R93). -/
def CoreState.schedExpandOp (c : CoreState) : CoreState := c.setW (schedExpand c.w)

/-- `LDB i, b`: `BUF[i] <- b` (41_schedule.md R96). -/
def execLdb (i : BitVec 6) (b : Byte) (s : State) : Host.Outcome State Fault Refusal :=
  .next (complete (s.core.loadByte i b) 0x00 s)

end Sys2Proof.Machine
end

