-- ==== Sys2Proof/Machine/Compression.lean ====
section
/-! DEFINITION. COMP, the 64-round compressor (42_compression.md), the internal operation BlockProcess and the command
BLOCK. -/

namespace Sys2Proof.Machine

/-- `bsig0`, the source's Σ0: three rotations (42_compression.md R102). -/
def bsig0 (x : Word) : Word := rotr x 2 ^^^ rotr x 13 ^^^ rotr x 22

/-- `bsig1`, the source's Σ1: three rotations (42_compression.md R102). -/
def bsig1 (x : Word) : Word := rotr x 6 ^^^ rotr x 11 ^^^ rotr x 25

/-- `Ch` (42_compression.md R102); the `not` binds tighter than the `and` (00_scope.md R12). -/
def ch (x y z : Word) : Word := (x &&& y) ^^^ (~~~x &&& z)

/-- `Maj` (42_compression.md R102). -/
def maj (x y z : Word) : Word := (x &&& y) ^^^ (x &&& z) ^^^ (y &&& z)

/-- `Round(v, k, w)`, in the simultaneous form (42_compression.md R103). -/
def oneRound (v : Vars) (k w : Word) : Vars :=
  let t1 := v.h + bsig1 v.e + ch v.e v.f v.g + k + w
  let t2 := bsig0 v.a + maj v.a v.b v.c
  { a := t1 + t2, b := v.a, c := v.b, d := v.c, e := v.d + t1, f := v.e, g := v.f, h := v.g }

/-- a..h from H[0..7], in this order (42_compression.md R104). -/
def Vars.ofHash (hin : HashState) : Vars :=
  { a := hin[0], b := hin[1], c := hin[2], d := hin[3], e := hin[4], f := hin[5], g := hin[6], h := hin[7] }

/-- `Rounds(Hin, W)`: round i uses K[i] and W[i], i in 0..63 in increasing order (42_compression.md R104). -/
def rounds (hin : HashState) (w : Schedule) : Vars :=
  (List.finRange 64).foldl (fun v i => oneRound v Config.roundConstants[i.val] w[i.val]) (Vars.ofHash hin)

/-- `Compress(Hin, B)` (42_compression.md R105). -/
def compress (hin : HashState) (b : Block) : HashState := accum hin (rounds hin (sched b))

/-- The hardware operation `(a..h) <- Rounds(H, W)` (42_compression.md R106). -/
def CoreState.roundsOp (c : CoreState) : CoreState := c.setVars (rounds c.h c.w)

/-- `BlockProcess`: SchedLoad, SchedExpand, the rounds, AccumOp, in this order (42_compression.md R106). -/
def CoreState.blockProcess (c : CoreState) : CoreState :=
  c.schedLoadOp.schedExpandOp.roundsOp.accumOp

/-- `BLOCK` (42_compression.md R107). -/
def execBlock (s : State) : Host.Outcome State Fault Refusal :=
  .next (complete s.core.blockProcess 0x00 s)

end Sys2Proof.Machine
end

