-- ==== Sys2Proof/Machine/Serialize.lean ====
section
/-! DEFINITION. SER, the digest serializer with the byte swap inside each word, and the hex encoder
(44_serialize_hex.md), with the commands DIGEST and RDHEX. -/

namespace Sys2Proof.Machine

/-- `Serialize(Hs, le)`: word k is bytes 4k..4k+3, most significant byte first, or least significant first when `le`
(44_serialize_hex.md R126). -/
def serialize (hs : HashState) (le : Bool) : Digest :=
  Vector.ofFn fun m =>
    let j := m.val % 4
    byteOf hs[m.val / 4] (if le then 3 - j else j)

/-- `hexdigit`: the ASCII code of a nibble's lower-case digit (44_serialize_hex.md R129). -/
def hexDigit (n : BitVec 4) : Byte :=
  if n.toNat ≤ 9 then 0x30 + n.setWidth 8 else 0x61 + (n.setWidth 8 - 10)

/-- `HexEnc(D)`: each byte as two digits, high nibble first (44_serialize_hex.md R130). -/
def hexEnc (d : Digest) : HexString :=
  Vector.ofFn fun i =>
    let b := d[i.val / 2]
    hexDigit (if i.val % 2 = 0 then b.extractLsb' 4 4 else b.extractLsb' 0 4)

/-- The hardware operation SerOp (44_serialize_hex.md R127). -/
def CoreState.serOp (c : CoreState) (le : Bool) : CoreState := c.setDg (serialize c.h le)

/-- The hardware operation HexOp (44_serialize_hex.md R131). -/
def CoreState.hexOp (c : CoreState) : CoreState := c.setHex (hexEnc c.dg)

/-- `DigestOp(le)`, shared by DIGEST and FINAL (44_serialize_hex.md R132). -/
def CoreState.digestOp (c : CoreState) (le : Bool) : CoreState := (c.serOp le).hexOp.markHexValid

/-- `DIGEST le` (44_serialize_hex.md R134). -/
def execDigest (le : Bool) (s : State) : Host.Outcome State Fault Refusal :=
  .next (complete (s.core.digestOp le) 0x00 s)

/-- `RDHEX i`: refused with NOHEX while HEXV = 0, else HEX[i] (44_serialize_hex.md R136). -/
def execRdhex (i : BitVec 6) (s : State) : Host.Outcome State Fault Refusal :=
  if s.core.hexv then .next (complete s.core (s.core.hexAt i) s) else .next (raiseErr .nohex s)

end Sys2Proof.Machine
end

