-- ==== Sys2Proof/Machine/Padding.lean ====
section
/-! DEFINITION. PAD, the message padder (40_padding.md): the padding as a pure function, and the commands PUSH and FINAL
that apply it to a message arriving byte by byte. -/

namespace Sys2Proof.Machine

/-- `Pad(M)`: M, then 0x80, then z zero bytes with z = (55 - n) mod 64, then the bit length modulo 2^64 as 8 bytes, most
significant first (40_padding.md R80, R82). -/
def pad (m : List Byte) : List Byte :=
  m ++ [0x80] ++ List.replicate ((55 - (m.length : Int)) % 64).toNat 0 ++
    (be64bytes (BitVec.ofNat 64 (8 * m.length))).toList

/-- PUSH with FIN = 0: the byte goes to BUF[N], LEN grows by 8 bits, and the 64th byte of a block has the block
processed (40_padding.md R83). -/
def CoreState.pushByte (c : CoreState) (b : Byte) : CoreState :=
  let c1 := (c.storeNext b).setLen (c.len + 8)
  if c.n = 63 then c1.blockProcess.setN 0 else c1.setN (c.n + 1)

/-- `PUSH b`: refused with SEQ while FIN = 1 (40_padding.md R83). -/
def execPush (b : Byte) (s : State) : Host.Outcome State Fault Refusal :=
  if s.core.fin then .next (raiseErr .seq s) else .next (complete (s.core.pushByte b) 0x00 s)

/-- The padding steps of FINAL up to the length field: 0x80 at BUF[N]; when the length field does not fit, zeros to the
end, that block processed, and zeros from the start; else zeros up to index 55 (40_padding.md R85). -/
def CoreState.padZeros (c : CoreState) : CoreState :=
  let c1 := c.storeNext 0x80
  if 56 ≤ c.n.toNat then
    let c2 := (c1.setBuf (zeroFill c1.buf (c.n.toNat + 1) 63)).blockProcess
    c2.setBuf (zeroFill c2.buf 0 55)
  else c1.setBuf (zeroFill c1.buf (c.n.toNat + 1) 55)

/-- `MemWrite(BUF + 56, 8, LEN)` (40_padding.md R85). -/
def CoreState.writeLength (c : CoreState) : CoreState := c.setBuf (memWrite c.buf 56 (be64bytes c.len))

/-- FINAL with FIN = 0 (40_padding.md R85). -/
def CoreState.finalize (c : CoreState) (le : Bool) : CoreState :=
  ((c.padZeros.writeLength.blockProcess.setN 0).digestOp le).markFinalized

/-- `FINAL le`: refused with SEQ while FIN = 1 (40_padding.md R85). -/
def execFinal (le : Bool) (s : State) : Host.Outcome State Fault Refusal :=
  if s.core.fin then .next (raiseErr .seq s) else .next (complete (s.core.finalize le) 0x00 s)

end Sys2Proof.Machine
end

