-- ==== Sys2Proof/Machine/System.lean ====
section
/-! DEFINITION. The system commands NOP and RDSTAT (45_system.md). There are no others (R140). -/

namespace Sys2Proof.Machine

/-- `NOP` does nothing and is answered `{0, 0x00}` (45_system.md R141). -/
def execNop (s : State) : Host.Outcome State Fault Refusal :=
  .next (complete s.core 0x00 s)

/-- `RDSTAT` returns the status byte (45_system.md R142). -/
def execRdstat (s : State) : Host.Outcome State Fault Refusal :=
  .next (complete s.core s.core.status s)

end Sys2Proof.Machine
end

