-- ==== Sys2Proof/Machine/Dispatch.lean ====
section
/-! DEFINITION. What each command does to the state: one arm per row of the opcode table (30_encoding.md R65). -/

namespace Sys2Proof.Machine

def exec (i : Instr) (s : State) : Host.Outcome State Fault Refusal :=
  match i with
  | .nop => Sys2Proof.Machine.execNop s
  | .init => Sys2Proof.Machine.execInit s
  | .push b => Sys2Proof.Machine.execPush b s
  | .final le => Sys2Proof.Machine.execFinal le s
  | .block => Sys2Proof.Machine.execBlock s
  | .digest le => Sys2Proof.Machine.execDigest le s
  | .rdhex k => Sys2Proof.Machine.execRdhex k s
  | .rdstat => Sys2Proof.Machine.execRdstat s
  | .ldb k b => Sys2Proof.Machine.execLdb k b s

end Sys2Proof.Machine
end

