-- ==== Sys2Proof/Machine/Accept.lean ====
section
/-! DEFINITION. One move of the host (60_exceptions.md R163): a command word accepted and executed, a reset, or
nothing. -/

namespace Sys2Proof.Machine

/-- The core accepts the word `c`: decode first, then the command's own rule (60_exceptions.md R156); a reserved word is
answered ILLEGAL and changes nothing (30_encoding.md R67, 60_exceptions.md R153). -/
def acceptWord (c : BitVec 16) (s : State) : Host.Outcome State Fault Refusal :=
  match decode c with
  | .legal i => exec i s
  | .illegal _ => .next (raiseErr .illegal s)

/-- `rst`: the whole core takes its reset values, whatever it held, and gives no response (70_reset_and_hazards.md
R170, R171). The host's later moves and the responses it already has are the host's, and stay (log entry 3). -/
def hostReset (s : State) : State := { s with core := CoreState.reset }

/-- One move of the host (60_exceptions.md R163). -/
def hostMove (a : HostAction) (s : State) : Host.Outcome State Fault Refusal :=
  match a with
  | .command c => acceptWord c s
  | .reset => .next (hostReset s)
  | .idle => .next s

/-- The next move of the host is taken from the list and made. When none is left the host does nothing and "the state
stays as it is indefinitely" (60_exceptions.md R163). -/
def takeInput (s : State) : Host.Outcome State Fault Refusal :=
  match s.inputs with
  | [] => .next s
  | a :: rest => hostMove a { s with inputs := rest }

/-- The host's next move presents the word `c`, before its other moves. -/
def presentWord (c : BitVec 16) (s : State) : State := { s with inputs := .command c :: s.inputs }

end Sys2Proof.Machine
end

