-- ==== Sys2Proof/Machine/Step.lean ====
section
/-! DEFINITION. One step of the machine is one move of the host, executed to completion (20_memory.md R50,
30_encoding.md R60: "one atomic step from state and command word to state and response"). -/

namespace Sys2Proof.Machine

/-- One step: the host's next move. -/
def step (s : State) : Host.Outcome State Fault Refusal := takeInput s

/-- `s` with the `nbits`-bit word `w` presented as the host's next command, so that the very next step runs it. There is
no program counter and no instruction memory (10_state.md R23, 20_memory.md R54): the core takes its commands from the
host (log entry 1). -/
def State.withFetchWord (s : State) (nbits w : Nat) : State := presentWord (BitVec.ofNat 16 (w % 2 ^ nbits)) s

end Sys2Proof.Machine
end

