-- ==== Sys2Proof/Machine/Assembler.lean ====
section
/-! DEFINITION. The textual form of programs (30_encoding.md R70) and the four pseudo-instructions (R71): a line of text
becomes a list of command words. What the spec leaves open of the text is fixed in log entry 6. -/

namespace Sys2Proof.Machine

/-- `HASH`: `INIT`, a PUSH for each byte of the message, `FINAL le` (30_encoding.md R71). -/
def hashCommands (m : List Byte) (le : Bool) : List Instr := .init :: m.map .push ++ [.final le]

/-- `RDSTR`: `RDHEX 0` to `RDHEX 63` (30_encoding.md R71). -/
def rdstrCommands : List Instr := (List.range 64).map fun i => .rdhex (BitVec.ofNat 6 i)

/-- `LDBLK`: an LDB for each byte of a block, index 0 first (30_encoding.md R71). -/
def ldblkCommands (b : Block) : List Instr := (List.finRange 64).map fun i => .ldb (BitVec.ofNat 6 i.val) b[i.val]

/-- `RAWBLK`: `LDBLK`, then `BLOCK` (30_encoding.md R71). -/
def rawblkCommands (b : Block) : List Instr := ldblkCommands b ++ [.block]

/-- One line of a program, its operands plain numbers (30_encoding.md R70, R71). -/
inductive AsmLine where
  /-- Nothing but spaces and a comment. -/
  | blank
  | instr (x : Source)
  | hash (m : List Nat) (le : Nat)
  | rdstr
  | ldblk (bytes : List Nat)
  | rawblk (bytes : List Nat)
  deriving DecidableEq, Repr

/-- The bytes of a list of numbers; none where one is above 255 (30_encoding.md R70). -/
def toBytes (xs : List Nat) : Option (List Byte) :=
  if xs.all (· ≤ 255) then some (xs.map (BitVec.ofNat 8)) else none

/-- The block of 64 numbers; none for another count or a number above 255. -/
def toBlock (xs : List Nat) : Option Block :=
  (toBytes xs).bind fun bs => if h : bs.length = 64 then some ⟨bs.toArray, by simpa using h⟩ else none

/-- The commands a line stands for; none where an operand is out of its range (30_encoding.md R70, R71). -/
def AsmLine.expand : AsmLine → Option (List Instr)
  | .blank => some []
  | .instr x => x.toInstr.map ([·])
  | .hash m le => if le ≤ 1 then (toBytes m).map (hashCommands · (le == 1)) else none
  | .rdstr => some rdstrCommands
  | .ldblk xs => (toBlock xs).map ldblkCommands
  | .rawblk xs => (toBlock xs).map rawblkCommands

/-- The pieces of a line of text. -/
inductive Token where
  | word (cs : List Char)
  | num (v : Nat)
  | text (cs : List Char)
  | comma
  /-- `;` and what stands after it. -/
  | comment (cs : List Char)
  deriving DecidableEq, Repr

/-- The value of a hexadecimal digit, in either case (log entry 6). -/
def digitValue (c : Char) : Option Nat :=
  if '0' ≤ c ∧ c ≤ '9' then some (c.toNat - '0'.toNat)
  else if 'a' ≤ c ∧ c ≤ 'f' then some (c.toNat - 'a'.toNat + 10)
  else if 'A' ≤ c ∧ c ≤ 'F' then some (c.toNat - 'A'.toNat + 10)
  else none

/-- Digits read in a base, most significant first. -/
def readDigits (base : Nat) : Nat → List Char → Option Nat
  | acc, [] => some acc
  | acc, c :: cs =>
    match digitValue c with
    | some d => if d < base then readDigits base (acc * base + d) cs else none
    | none => none

/-- A number, decimal or hexadecimal with `0x`; or else a word (30_encoding.md R70). -/
def readWord (cs : List Char) : Option Token :=
  match cs with
  | '0' :: 'x' :: d :: ds => (readDigits 16 0 (d :: ds)).map .num
  | c :: _ => if c.isDigit then (readDigits 10 0 cs).map .num else some (.word cs)
  | [] => none

/-- The word gathered so far, if there is one, before the tokens after it. -/
def closeWord (acc : List Char) (rest : Option (List Token)) : Option (List Token) :=
  match acc with
  | [] => rest
  | _ :: _ => do return (← readWord acc.reverse) :: (← rest)

/-- Where the reader of a line stands: between or inside words, or inside a quoted text. The characters gathered so far
are in reverse. -/
inductive LexMode where
  | word (acc : List Char)
  | text (acc : List Char)
  deriving DecidableEq, Repr

/-- A line of text as tokens: words and numbers are set apart by spaces and commas, a character in single quotes is its
ASCII code, a text in double quotes is one token, `;` starts a comment (30_encoding.md R70, R71). -/
def lex : LexMode → List Char → Option (List Token)
  | .word acc, [] => closeWord acc (some [])
  | .text _, [] => none
  | .text acc, c :: cs =>
    if c = '"' then (lex (.word []) cs).map (.text acc.reverse :: ·) else lex (.text (c :: acc)) cs
  | .word acc, '\'' :: c :: '\'' :: cs =>
    if c.toNat < 128 then closeWord acc ((lex (.word []) cs).map (.num c.toNat :: ·)) else none
  | .word acc, c :: cs =>
    if c = ' ' ∨ c = '\t' then closeWord acc (lex (.word []) cs)
    else if c = ',' then closeWord acc ((lex (.word []) cs).map (.comma :: ·))
    else if c = ';' then closeWord acc (some [.comment cs])
    else if c = '"' then closeWord acc (lex (.text []) cs)
    else lex (.word (c :: acc)) cs

/-- Numbers with commas between them. -/
def readNumbers : List Token → Option (List Nat)
  | [] => some []
  | [.num v] => some [v]
  | .num v :: .comma :: .num v' :: rest => (readNumbers (.num v' :: rest)).map (v :: ·)
  | _ => none

/-- The codes of a text of ASCII characters (30_encoding.md R71). -/
def textCodes (cs : List Char) : Option (List Nat) :=
  if cs.all (·.toNat < 128) then some (cs.map Char.toNat) else none

/-- The operands of HASH: a text in quotes with `le` after a comma, or numbers with `le` after a `;`; `le` may be left
out and is then 0 (30_encoding.md R70, R71; log entry 6 on the `;`). -/
def readHash (operands : List Token) (comment : List Char) : Option AsmLine :=
  match operands with
  | [.text cs] => (textCodes cs).map (.hash · 0)
  | [.text cs, .comma, .num le] => (textCodes cs).map (.hash · le)
  | _ =>
    match lex (.word []) comment with
    | some [.num le] => (readNumbers operands).map (.hash · le)
    | _ => (readNumbers operands).map (.hash · 0)

/-- A mnemonic with its operands (30_encoding.md R70, R71); `comment` is the text after a `;`. -/
def readStatement (mnemonic : List Char) (operands : List Token) (comment : List Char) : Option AsmLine :=
  if mnemonic = ['H', 'A', 'S', 'H'] then readHash operands comment
  else do
    let xs ← readNumbers operands
    match mnemonic, xs with
    | ['N', 'O', 'P'], [] => some (.instr .nop)
    | ['I', 'N', 'I', 'T'], [] => some (.instr .init)
    | ['P', 'U', 'S', 'H'], [b] => some (.instr (.push b))
    | ['F', 'I', 'N', 'A', 'L'], [] => some (.instr (.final 0))
    | ['F', 'I', 'N', 'A', 'L'], [le] => some (.instr (.final le))
    | ['B', 'L', 'O', 'C', 'K'], [] => some (.instr .block)
    | ['D', 'I', 'G', 'E', 'S', 'T'], [] => some (.instr (.digest 0))
    | ['D', 'I', 'G', 'E', 'S', 'T'], [le] => some (.instr (.digest le))
    | ['R', 'D', 'H', 'E', 'X'], [i] => some (.instr (.rdhex i))
    | ['R', 'D', 'S', 'T', 'A', 'T'], [] => some (.instr .rdstat)
    | ['L', 'D', 'B'], [i, b] => some (.instr (.ldb i b))
    | ['R', 'D', 'S', 'T', 'R'], [] => some .rdstr
    | ['L', 'D', 'B', 'L', 'K'], bytes => some (.ldblk bytes)
    | ['R', 'A', 'W', 'B', 'L', 'K'], bytes => some (.rawblk bytes)
    | _, _ => none

/-- The tokens before a comment, and the comment's text. -/
def splitComment : List Token → List Token × List Char
  | [] => ([], [])
  | .comment cs :: _ => ([], cs)
  | t :: rest => (t :: (splitComment rest).1, (splitComment rest).2)

/-- A line of text as a line of a program (30_encoding.md R70); none where the text is no line. -/
def parseLine (line : List Char) : Option AsmLine := do
  let (statement, comment) := splitComment (← lex (.word []) line)
  match statement with
  | [] => some .blank
  | .word mnemonic :: operands => readStatement mnemonic operands comment
  | _ => none

/-- The command words of a line of text (30_encoding.md R70, R71). -/
def assembleLine (line : List Char) : Option (List (BitVec 16)) := do
  let commands ← (← parseLine line).expand
  return commands.map encode

end Sys2Proof.Machine
end

