-- ==== Sys2Proof/Machine/Hash.lean ====
section
/-! DEFINITION. The source's whole operation as a pure function: chaining over blocks (43_accumulate.md R118) and `Hash`
(44_serialize_hex.md R133). No command computes it at once; it is what PUSH, FINAL and RDHEX together deliver. -/

namespace Sys2Proof.Machine

/-- `Chain`: the hash state carried across a list of blocks, left to right (43_accumulate.md R118). -/
def chain (hin : HashState) : List Block → HashState
  | [] => hin
  | b :: rest => chain (compress hin b) rest

/-- `blocks`: the whole 64-byte blocks of a byte list; block k is its bytes 64k..64k+63 (44_serialize_hex.md R133,
40_padding.md R81). -/
def blocks (m : List Byte) : List Block :=
  (List.range (m.length / 64)).map fun k => Vector.ofFn fun j => m.getD (64 * k + j.val) 0

/-- `Hash(M, le)` (44_serialize_hex.md R133). -/
def hashOf (m : List Byte) (le : Bool) : HexString :=
  hexEnc (serialize (chain Config.initialHash (blocks (pad m))) le)

end Sys2Proof.Machine
end

