-- ==== Sys2Proof/Safety.lean ====
section
/-! DEFINITION. What counts as a good state and a good run, in the terms claims use. No step stops (60_exceptions.md
R162), so a good run is one in which no response had ERR = 1; a good state is one that meets the invariants of
10_state.md R36. Programs are lists of commands the host presents (R163). -/

namespace Sys2Proof

/-- The commands that may stand between INIT and FINAL in message mode beside PUSH (40_padding.md R84): those that touch
neither the message nor the hash state. -/
def Instr.isReading : Instr → Bool
  | .nop | .rdstat | .rdhex _ | .digest _ => true
  | .init | .push _ | .final _ | .block | .ldb _ _ => false

/-- The commands of message mode, after its INIT (70_reset_and_hazards.md R174). -/
def Instr.inMessageMode : Instr → Bool
  | .push _ | .final _ | .nop | .rdstat | .rdhex _ | .digest _ => true
  | .init | .block | .ldb _ _ => false

end Sys2Proof

namespace Sys2Proof.Machine

/-- The command was not refused (30_encoding.md R69). -/
def Response.ok (r : Response) : Bool := !r.err

/-- "no response had ERR = 1" (60_exceptions.md R162). -/
def State.neverRefused (s : State) : Bool := s.responses.all Response.ok

/-- One of the 16 codes of `0`-`9`, `a`-`f` (10_state.md R36 item 2, 44_serialize_hex.md R129). -/
def isHexCode (b : Byte) : Bool :=
  (0x30 ≤ b.toNat && b.toNat ≤ 0x39) || (0x61 ≤ b.toNat && b.toNat ≤ 0x66)

/-- The invariants of 10_state.md R36, items 2 and 3; item 1, N ≤ 63, is the type of N. -/
structure CoreState.Inv (c : CoreState) : Prop where
  /-- Item 2: a valid string is the hex of DG. -/
  hexv_encodes : c.hexv = true → c.hex = hexEnc c.dg
  /-- Item 2: every character of a valid string is a hex digit. -/
  hexv_digits  : c.hexv = true → ∀ (i : Nat) (_ : i < 64), isHexCode c.hex[i] = true
  /-- Item 3: a finalized message has its string. -/
  fin_hexv     : c.fin = true → c.hexv = true
  /-- Item 3: after FINAL the buffer is empty. -/
  fin_empty    : c.fin = true → c.n = 0

/-- The host's coming moves are these commands, one after the other. -/
def State.withCommands (s : State) (is : List Instr) : State :=
  { s with inputs := is.map fun i => .command (encode i) }

/-- The host presents these commands, one after the other, and the machine takes a step for each. -/
def runCommands (is : List Instr) (s : State) : Host.Outcome State Fault Refusal :=
  Host.Core.run Sys2Proof.core is.length (s.withCommands is)

/-- The message bytes that a list of commands pushes, in order. -/
def pushedBytes : List Instr → List Byte
  | [] => []
  | .push b :: rest => b :: pushedBytes rest
  | _ :: rest => pushedBytes rest

/-- The LDB commands that load these bytes, each at its index, in this order (41_schedule.md R96). -/
def loadCommands (l : List (BitVec 6 × Byte)) : List Instr := l.map fun x => .ldb x.1 x.2

/-- One block of raw mode: LDB commands in whatever order the host chooses, then BLOCK (70_reset_and_hazards.md
R175). -/
def rawCommands (l : List (BitVec 6 × Byte)) : List Instr := loadCommands l ++ [.block]

/-- Every index of the buffer is among the loads (70_reset_and_hazards.md R175: "all 64, any order"). -/
def namesEveryIndex (l : List (BitVec 6 × Byte)) : Prop := ∀ i : BitVec 6, ∃ b, (i, b) ∈ l

/-- The loads name every index, and the last byte loaded to it is that of the block: "the last write to an index wins"
(41_schedule.md R96 corner case 2). -/
def loadsBlock (l : List (BitVec 6 × Byte)) (b : Block) : Prop :=
  ∀ i : BitVec 6, l.reverse.lookup i = some (b[i.toNat]'i.isLt)

/-- One list of loads for each block, in order. -/
def loadsBlocks : List (List (BitVec 6 × Byte)) → List Block → Prop
  | [], [] => True
  | l :: ls, b :: bs => loadsBlock l b ∧ loadsBlocks ls bs
  | [], _ :: _ | _ :: _, [] => False

/-- Two core states that differ at most in what no command ever reads before writing it: W, a..h and DG (10_state.md
R22, R28, R30, R33). -/
structure CoreState.SameButHidden (c d : CoreState) : Prop where
  h    : c.h = d.h
  buf  : c.buf = d.buf
  n    : c.n = d.n
  len  : c.len = d.len
  hex  : c.hex = d.hex
  hexv : c.hexv = d.hexv
  fin  : c.fin = d.fin

end Sys2Proof.Machine
end

