-- ==== Sys2Proof/Certificates/Slice0/Obligations.lean ====
section
/-! DEFINITION. The statements for the provers, each with the rule or the section of spec/ it comes from. A statement
about an instruction says what the answer of `exec` IS, for all states and operands that meet its hypotheses, so it also
says where the instruction completes and what it leaves unchanged. `s.responses ++ [⟨false, d⟩]` is the response
`{0, d}`, `s.responses ++ [⟨true, e⟩]` the error response `{1, e}` (30_encoding.md R69). -/

open Sys2Proof Sys2Proof.Machine

/-! ## Encoding (30_encoding.md) -/

/-- Every command's word decodes to that command, with every operand at every value (30_encoding.md R65, R66). -/
def Obligations.DecodeUndoesEncode : Prop := ∀ i : Instr, decode (encode i) = .legal i

/-- Each legal word has one meaning and is that command's own word (30_encoding.md R65, R66). -/
def Obligations.EncodeUndoesDecode : Prop := ∀ (c : BitVec 16) (i : Instr), decode c = .legal i → encode i = c

/-- 30_encoding.md R65, row by row: a word is the command of a row exactly when its masked bits are the row's match, and
its operands are the fields of the row's pattern. Stated again over the rows of `opcodeMap`, of which no two match one
word. -/
def Obligations.OpcodeMapSelectsCommand : Prop :=
  (∀ c : BitVec 16,
    (decode c = .legal .nop ↔ c &&& 0xFFFF = 0x0000) ∧ (decode c = .legal .init ↔ c &&& 0xFFFF = 0x1000) ∧
    (∀ b, decode c = .legal (.push b) ↔ c &&& 0xFF00 = 0x2000 ∧ b = c.extractLsb' 0 8) ∧
    (∀ le, decode c = .legal (.final le) ↔ c &&& 0xFFFE = 0x3000 ∧ le = c.getLsbD 0) ∧
    (decode c = .legal .block ↔ c &&& 0xFFFF = 0x4000) ∧
    (∀ le, decode c = .legal (.digest le) ↔ c &&& 0xFFFE = 0x5000 ∧ le = c.getLsbD 0) ∧
    (∀ i, decode c = .legal (.rdhex i) ↔ c &&& 0xFFC0 = 0x6000 ∧ i = c.extractLsb' 0 6) ∧
    (decode c = .legal .rdstat ↔ c &&& 0xFFFF = 0x7000) ∧
    (∀ i b, decode c = .legal (.ldb i b) ↔ c &&& 0xC000 = 0xC000 ∧ i = c.extractLsb' 8 6 ∧ b = c.extractLsb' 0 8)) ∧
  (∀ (c : BitVec 16), ∀ r ∈ opcodeMap, (r.covers c ↔ ∃ i, decode c = .legal i ∧ i.opcode = r.opcode)) ∧
  (∀ (c : BitVec 16), ∀ r ∈ opcodeMap, ∀ r' ∈ opcodeMap, r.covers c → r'.covers c → r = r')

/-- The words of the commands as numbers (the table of 30_encoding.md R70, from the formats of R63 and R64). -/
def Obligations.WordsCarryTheirOperands : Prop :=
  ∀ (b : Byte) (i : BitVec 6) (le : Bool),
    (encode .nop).toNat = 0x0000 ∧ (encode .init).toNat = 0x1000 ∧
    (encode (.push b)).toNat = 0x2000 + b.toNat ∧ (encode (.final le)).toNat = 0x3000 + le.toNat ∧
    (encode .block).toNat = 0x4000 ∧ (encode (.digest le)).toNat = 0x5000 + le.toNat ∧
    (encode (.rdhex i)).toNat = 0x6000 + i.toNat ∧ (encode .rdstat).toNat = 0x7000 ∧
    (encode (.ldb i b)).toNat = 0xC000 + 256 * i.toNat + b.toNat

/-- 30_encoding.md R67: the reserved words are exactly those of its list, and the core answers each of them, in every
state, with the error response `{1, 0x01}` and changes nothing. -/
def Obligations.ReservedWordsAreRefused : Prop :=
  (∀ c : BitVec 16, (∃ why, decode c = .illegal why) ↔
    (0x8000 ≤ c.toNat ∧ c.toNat ≤ 0xBFFF) ∨
    (0x0001 ≤ c.toNat ∧ c.toNat ≤ 0x0FFF) ∨ (0x1001 ≤ c.toNat ∧ c.toNat ≤ 0x1FFF) ∨
    (0x4001 ≤ c.toNat ∧ c.toNat ≤ 0x4FFF) ∨ (0x7001 ≤ c.toNat ∧ c.toNat ≤ 0x7FFF) ∨
    (0x2100 ≤ c.toNat ∧ c.toNat ≤ 0x2FFF) ∨
    (0x3002 ≤ c.toNat ∧ c.toNat ≤ 0x3FFF) ∨ (0x5002 ≤ c.toNat ∧ c.toNat ≤ 0x5FFF) ∨
    (0x6040 ≤ c.toNat ∧ c.toNat ≤ 0x6FFF)) ∧
  (∀ (c : BitVec 16) (why : Reserved) (s : State) (rest : List HostAction),
    decode c = .illegal why → s.inputs = .command c :: rest →
    step s = .next { core := s.core, inputs := rest, responses := s.responses ++ [⟨true, 0x01⟩] })

/-- There are 16712 legal words (30_encoding.md R66, a sentence marked there as derived). -/
def Obligations.LegalWordCount : Prop :=
  ∃ ws : List (BitVec 16), ws.Nodup ∧ ws.length = 16712 ∧ ∀ c, c ∈ ws ↔ ∃ i, decode c = .legal i

/-- Words of 95_test_vectors.md TV1, at least one of every command and one reserved word of every kind. -/
def Obligations.ListedWordsDecode : Prop :=
  decode 0x0000 = .legal .nop ∧ decode 0x1000 = .legal .init ∧ decode 0x20FF = .legal (.push 0xFF) ∧
  decode 0x3001 = .legal (.final true) ∧ decode 0x4000 = .legal .block ∧ decode 0x5000 = .legal (.digest false) ∧
  decode 0x603F = .legal (.rdhex 63) ∧ decode 0x7000 = .legal .rdstat ∧ decode 0xC380 = .legal (.ldb 3 0x80) ∧
  decode 0xFF18 = .legal (.ldb 63 0x18) ∧ decode 0x8000 = .illegal .unassignedQuarter ∧
  decode 0x0001 = .illegal (.zeroBitsSet 0) ∧ decode 0x2100 = .illegal (.zeroBitsSet 2) ∧
  decode 0x5003 = .illegal (.zeroBitsSet 5) ∧ decode 0x6040 = .illegal (.zeroBitsSet 6)

/-- An instruction of the assembler stands for a command exactly when it is that command with its operands as numbers; an
operand out of its range has no encoding (30_encoding.md R64, R70). -/
def Obligations.OperandsInRangeHaveACommand : Prop :=
  ∀ (x : Source) (i : Instr), x.toInstr = some i ↔ i.toSource = x

/-- The pseudo-instructions are the command sequences of 30_encoding.md R71, of the lengths given there: HASH is INIT, a
PUSH for each byte in order, FINAL. -/
def Obligations.PseudoInstructionsExpand : Prop :=
  ∀ (m : List Byte) (le : Bool) (b : Block),
    AsmLine.expand (.hash (m.map BitVec.toNat) le.toNat) = some (.init :: m.map .push ++ [.final le]) ∧
    hashCommands m le = .init :: m.map .push ++ [.final le] ∧ (hashCommands m le).length = m.length + 2 ∧
    AsmLine.expand .rdstr = some rdstrCommands ∧ rdstrCommands.length = 64 ∧
    (∀ k, k < 64 → rdstrCommands[k]? = some (.rdhex (BitVec.ofNat 6 k))) ∧
    AsmLine.expand (.ldblk (b.toList.map BitVec.toNat)) = some (ldblkCommands b) ∧ (ldblkCommands b).length = 64 ∧
    (∀ (k : Nat) (_ : k < 64), (ldblkCommands b)[k]? = some (.ldb (BitVec.ofNat 6 k) b[k])) ∧
    AsmLine.expand (.rawblk (b.toList.map BitVec.toNat)) = some (ldblkCommands b ++ [.block])

/-! ## A step (30_encoding.md R60, 60_exceptions.md, 70_reset_and_hazards.md) -/

/-- When the host's next move presents a word that decodes to `i`, the step is `exec i`, the move taken from the list;
`withFetchWord` presents its word so. (The list of moves is the model's own form of the host, log entry 1.) -/
def Obligations.StepRunsDecodedCommand : Prop :=
  (∀ (s : State) (c : BitVec 16) (i : Instr) (rest : List HostAction),
    s.inputs = .command c :: rest → decode c = .legal i → step s = exec i { s with inputs := rest }) ∧
  (∀ (s : State) (w : Nat) (i : Instr), decode (BitVec.ofNat 16 w) = .legal i → step (s.withFetchWord 16 w) = exec i s)

/-- Asserting reset puts the core, whatever it held, into exactly this state, and `State.reset` has it (10_state.md R35,
70_reset_and_hazards.md R170; the values of H0 are those of 43_accumulate.md R115, log entry 9). That the host's coming
moves and the responses it has stay is the model's own choice (log entry 3). -/
def Obligations.ResetGivesTheResetState : Prop :=
  ∃ c : CoreState, State.reset.core = c ∧
    (∀ (s : State) (rest : List HostAction), s.inputs = .reset :: rest →
      step s = .next { core := c, inputs := rest, responses := s.responses }) ∧
    c.h = #v[0x6A09E667, 0xBB67AE85, 0x3C6EF372, 0xA54FF53A, 0x510E527F, 0x9B05688C, 0x1F83D9AB, 0x5BE0CD19] ∧
    c.vars = ⟨0, 0, 0, 0, 0, 0, 0, 0⟩ ∧ (∀ (i : Nat) (_ : i < 64), c.w[i] = 0) ∧ (∀ (i : Nat) (_ : i < 64), c.buf[i] = 0) ∧
    c.n = 0 ∧ c.len = 0 ∧ (∀ (j : Nat) (_ : j < 32), c.dg[j] = 0) ∧ (∀ (i : Nat) (_ : i < 64), c.hex[i] = 0) ∧
    c.hexv = false ∧ c.fin = false

/-- When the host does nothing the state stays as it is (60_exceptions.md R163). (The idle move and the empty list are
the model's own forms of it, log entry 1.) -/
def Obligations.IdleHostChangesNothing : Prop :=
  (∀ s : State, s.inputs = [] → step s = .next s) ∧
  (∀ (s : State) (rest : List HostAction), s.inputs = .idle :: rest → step s = .next { s with inputs := rest })

/-- No step stops the machine: in every state every move of the host, any of the 65536 words among them, has a next
state (60_exceptions.md R162). -/
def Obligations.EveryMoveHasANextState : Prop := ∀ s : State, ∃ t, step s = .next t

/-- 60_exceptions.md R152: every accepted word gets exactly one response; it is an error exactly in the three cases of the
table, with the code given there, and then nothing of the core's state has changed. -/
def Obligations.EveryCommandIsAnsweredOnce : Prop :=
  ∀ (s : State) (c : BitVec 16) (rest : List HostAction), s.inputs = .command c :: rest →
    ∃ t r, step s = .next t ∧ t.inputs = rest ∧ t.responses = s.responses ++ [r] ∧
      (r.err = true → t.core = s.core) ∧
      match decode c with
      | .illegal _ => r = ⟨true, 0x01⟩
      | .legal (.rdhex _) => if s.core.hexv = true then r.err = false else r = ⟨true, 0x02⟩
      | .legal (.push _) | .legal (.final _) => if s.core.fin = true then r = ⟨true, 0x03⟩ else r.err = false
      | .legal .nop | .legal .init | .legal .block | .legal (.digest _) | .legal .rdstat | .legal (.ldb _ _) =>
        r.err = false

/-! ## The commands -/

/-- 45_system.md R141: NOP is the all-zero word, and in every state it changes nothing and is answered `{0, 0x00}`. -/
def Obligations.NopDoesNothing : Prop :=
  encode .nop = 0x0000 ∧
  ∀ s : State, exec .nop s = .next { s with responses := s.responses ++ [⟨false, 0x00⟩] }

/-- 43_accumulate.md R116: in every state INIT gives H its initial value, N, LEN, FIN, HEXV 0, and leaves BUF, W, a..h, DG,
HEX; a second INIT changes nothing more, nor does one directly after reset; a following RDSTAT answers 0x00 and a
following RDHEX the error 0x02. -/
def Obligations.InitStartsATransaction : Prop :=
  encode .init = 0x1000 ∧
  (∀ s : State, ∃ t, exec .init s = .next t ∧ t.inputs = s.inputs ∧ t.responses = s.responses ++ [⟨false, 0x00⟩] ∧
    (∀ (k : Nat) (_ : k < 8), t.core.h[k] = Config.initialHash[k]) ∧
    t.core.n = 0 ∧ t.core.len = 0 ∧ t.core.fin = false ∧ t.core.hexv = false ∧
    t.core.buf = s.core.buf ∧ t.core.w = s.core.w ∧ t.core.vars = s.core.vars ∧ t.core.dg = s.core.dg ∧
    t.core.hex = s.core.hex ∧
    exec .init t = .next { t with responses := t.responses ++ [⟨false, 0x00⟩] } ∧
    exec .rdstat t = .next { t with responses := t.responses ++ [⟨false, 0x00⟩] } ∧
    (∀ i, exec (.rdhex i) t = .next { t with responses := t.responses ++ [⟨true, 0x02⟩] })) ∧
  (∀ s : State, s.core = CoreState.reset →
    exec .init s = .next { s with responses := s.responses ++ [⟨false, 0x00⟩] })

/-- 40_padding.md R83: PUSH. While FIN = 1 it is refused with SEQ and changes nothing. Else the byte goes to BUF[N] and LEN
grows by 8 modulo 2^64; below N = 63 N grows by 1 and nothing else changes; at N = 63 the whole buffer is processed into H
(leaving its schedule in W and its last variables in a..h) and N is 0. -/
def Obligations.PushAppendsAByte : Prop :=
  ∀ b : Byte, (encode (.push b)).toNat = 0x2000 + b.toNat ∧
  (∀ s : State, s.core.fin = true →
    exec (.push b) s = .next { s with responses := s.responses ++ [⟨true, 0x03⟩] }) ∧
  (∀ s : State, s.core.fin = false → ∃ t, exec (.push b) s = .next t ∧
    t.inputs = s.inputs ∧ t.responses = s.responses ++ [⟨false, 0x00⟩] ∧
    (∀ (j : Nat) (_ : j < 64), t.core.buf[j] = if j = s.core.n.toNat then b else s.core.buf[j]) ∧
    t.core.len.toNat = (s.core.len.toNat + 8) % 2 ^ 64 ∧
    t.core.dg = s.core.dg ∧ t.core.hex = s.core.hex ∧ t.core.hexv = s.core.hexv ∧ t.core.fin = false ∧
    (s.core.n.toNat < 63 → t.core.n.toNat = s.core.n.toNat + 1 ∧
      t.core.h = s.core.h ∧ t.core.vars = s.core.vars ∧ t.core.w = s.core.w) ∧
    (s.core.n.toNat = 63 → t.core.n = 0 ∧ t.core.h = compress s.core.h t.core.buf ∧
      t.core.w = sched t.core.buf ∧ t.core.vars = rounds s.core.h (sched t.core.buf)))

/-- 40_padding.md R85: FINAL. While FIN = 1 it is refused with SEQ and changes nothing. Else BUF is left holding the last
padded block: the pushed bytes (when the length field still fits, N < 56), 0x80 at N, zeros, and LEN big-endian at
56..63. When it does not fit, a block of the pushed bytes, 0x80 and zeros is processed first. H is the hash state after
these blocks; N is 0, DG and HEX are the digest of the new H, HEXV and FIN are 1, LEN is unchanged. -/
def Obligations.FinalClosesTheMessage : Prop :=
  ∀ le : Bool, (encode (.final le)).toNat = 0x3000 + le.toNat ∧
  (∀ s : State, s.core.fin = true →
    exec (.final le) s = .next { s with responses := s.responses ++ [⟨true, 0x03⟩] }) ∧
  (∀ s : State, s.core.fin = false → ∃ (t : State) (hin : HashState), exec (.final le) s = .next t ∧
    t.inputs = s.inputs ∧ t.responses = s.responses ++ [⟨false, 0x00⟩] ∧
    (∀ (j : Nat) (_ : j < 64), t.core.buf[j] =
      if 56 ≤ j then s.core.len.extractLsb' (8 * (63 - j)) 8
      else if 56 ≤ s.core.n.toNat then 0
      else if j < s.core.n.toNat then s.core.buf[j]
      else if j = s.core.n.toNat then 0x80 else 0) ∧
    (s.core.n.toNat < 56 → hin = s.core.h) ∧
    (56 ≤ s.core.n.toNat → ∃ first : Block, hin = compress s.core.h first ∧ ∀ (j : Nat) (_ : j < 64), first[j] =
      if j < s.core.n.toNat then s.core.buf[j] else if j = s.core.n.toNat then 0x80 else 0) ∧
    t.core.h = compress hin t.core.buf ∧ t.core.w = sched t.core.buf ∧
    t.core.vars = rounds hin (sched t.core.buf) ∧ t.core.n = 0 ∧ t.core.len = s.core.len ∧
    t.core.dg = serialize t.core.h le ∧ t.core.hex = hexEnc (serialize t.core.h le) ∧
    t.core.hexv = true ∧ t.core.fin = true)

/-- BLOCK processes the block buffer: H becomes Compress(H, BUF), W its schedule, a..h the variables after the last round;
BUF, N, LEN, DG, HEX, HEXV, FIN stay, whatever they are (42_compression.md R106, R107). -/
def Obligations.BlockProcessesTheBuffer : Prop :=
  encode .block = 0x4000 ∧
  ∀ s : State, ∃ t, exec .block s = .next t ∧ t.inputs = s.inputs ∧ t.responses = s.responses ++ [⟨false, 0x00⟩] ∧
    t.core.h = compress s.core.h s.core.buf ∧ t.core.w = sched s.core.buf ∧
    t.core.vars = rounds s.core.h (sched s.core.buf) ∧ t.core.buf = s.core.buf ∧ t.core.n = s.core.n ∧
    t.core.len = s.core.len ∧ t.core.dg = s.core.dg ∧ t.core.hex = s.core.hex ∧ t.core.hexv = s.core.hexv ∧
    t.core.fin = s.core.fin

/-- 41_schedule.md R96: in every state LDB writes the byte at its index of BUF and nothing else; at the next BlockProcess
the byte becomes its place of the schedule word i / 4, most significant byte first. -/
def Obligations.LdbLoadsOneByte : Prop :=
  ∀ (i : BitVec 6) (b : Byte), (encode (.ldb i b)).toNat = 0xC000 + 256 * i.toNat + b.toNat ∧
  ∀ s : State, ∃ t, exec (.ldb i b) s = .next t ∧ t.inputs = s.inputs ∧
    t.responses = s.responses ++ [⟨false, 0x00⟩] ∧
    (∀ (j : Nat) (_ : j < 64), t.core.buf[j] = if j = i.toNat then b else s.core.buf[j]) ∧
    t.core.h = s.core.h ∧ t.core.vars = s.core.vars ∧ t.core.w = s.core.w ∧ t.core.n = s.core.n ∧
    t.core.len = s.core.len ∧ t.core.dg = s.core.dg ∧ t.core.hex = s.core.hex ∧ t.core.hexv = s.core.hexv ∧
    t.core.fin = s.core.fin ∧
    (t.core.blockProcess.w.getD (i.toNat / 4) 0).extractLsb' (24 - 8 * (i.toNat % 4)) 8 = b

/-- 44_serialize_hex.md R134: in every state DIGEST puts the bytes of H into DG, in the order `le` asks for, their
characters into HEX, sets HEXV, and changes nothing else. -/
def Obligations.DigestEncodesTheHashState : Prop :=
  ∀ le : Bool, (encode (.digest le)).toNat = 0x5000 + le.toNat ∧
  ∀ s : State, ∃ t, exec (.digest le) s = .next t ∧ t.inputs = s.inputs ∧
    t.responses = s.responses ++ [⟨false, 0x00⟩] ∧
    t.core.dg = serialize s.core.h le ∧ t.core.hex = hexEnc (serialize s.core.h le) ∧ t.core.hexv = true ∧
    t.core.h = s.core.h ∧ t.core.vars = s.core.vars ∧ t.core.w = s.core.w ∧ t.core.buf = s.core.buf ∧
    t.core.n = s.core.n ∧ t.core.len = s.core.len ∧ t.core.fin = s.core.fin

/-- 44_serialize_hex.md R136: RDHEX returns HEX[i] when HEXV = 1 and is refused with NOHEX when HEXV = 0; either way it
changes nothing. In a state that meets the invariants the character is a hex digit. The string stays readable through
every command but INIT, and stays the same through every command but INIT, DIGEST and FINAL. -/
def Obligations.RdhexReturnsACharacter : Prop :=
  ∀ i : BitVec 6, (encode (.rdhex i)).toNat = 0x6000 + i.toNat ∧
  (∀ s : State, s.core.hexv = true → ∃ d : Byte, s.core.hex[i.toNat]? = some d ∧
    exec (.rdhex i) s = .next { s with responses := s.responses ++ [⟨false, d⟩] } ∧
    (s.core.Inv → isHexCode d = true)) ∧
  (∀ s : State, s.core.hexv = false →
    exec (.rdhex i) s = .next { s with responses := s.responses ++ [⟨true, 0x02⟩] }) ∧
  (∀ (s : State) (j : Instr), s.core.hexv = true → j ≠ .init → ∃ t, exec j s = .next t ∧ t.core.hexv = true ∧
    ((∀ le, j ≠ .digest le) → (∀ le, j ≠ .final le) → t.core.hex = s.core.hex))

/-- 45_system.md R142: in every state RDSTAT returns HEXV * 128 + FIN * 64 + N and changes nothing. In a state that meets
the invariants, bit 6 set makes the value 0xC0. -/
def Obligations.RdstatReturnsTheStatus : Prop :=
  encode .rdstat = 0x7000 ∧
  ∀ s : State, ∃ d : Byte, exec .rdstat s = .next { s with responses := s.responses ++ [⟨false, d⟩] } ∧
    d.toNat = s.core.hexv.toNat * 128 + s.core.fin.toNat * 64 + s.core.n.toNat ∧
    (s.core.Inv → d.getLsbD 6 = true → d = 0xC0)

/-! ## The word functions, the schedule, the rounds -/

/-- Bit i of `rotr(x, n)` is bit (i + n) mod 32 of x (00_scope.md R12). -/
def Obligations.RotateMovesBits : Prop :=
  ∀ (x : Word) (n i : Nat), 0 < n → n < 32 → i < 32 → (rotr x n).getLsbD i = x.getLsbD ((i + n) % 32)

/-- 41_schedule.md R91, bit by bit: two rotations and a logical shift each. -/
def Obligations.SmallSigmaBits : Prop :=
  ∀ (x : Word) (i : Nat), i < 32 →
    (ssig0 x).getLsbD i = ((x.getLsbD ((i + 7) % 32) ^^ x.getLsbD ((i + 18) % 32)) ^^ (decide (i < 29) && x.getLsbD (i + 3))) ∧
    (ssig1 x).getLsbD i = ((x.getLsbD ((i + 17) % 32) ^^ x.getLsbD ((i + 19) % 32)) ^^ (decide (i < 22) && x.getLsbD (i + 10)))

/-- 42_compression.md R102, bit by bit: three rotations each; Ch selects, Maj takes the majority. -/
def Obligations.RoundFunctionBits : Prop :=
  ∀ (x y z : Word) (i : Nat), i < 32 →
    (bsig0 x).getLsbD i = ((x.getLsbD ((i + 2) % 32) ^^ x.getLsbD ((i + 13) % 32)) ^^ x.getLsbD ((i + 22) % 32)) ∧
    (bsig1 x).getLsbD i = ((x.getLsbD ((i + 6) % 32) ^^ x.getLsbD ((i + 11) % 32)) ^^ x.getLsbD ((i + 25) % 32)) ∧
    (ch x y z).getLsbD i = (if x.getLsbD i then y.getLsbD i else z.getLsbD i) ∧
    (maj x y z).getLsbD i = decide (2 ≤ (x.getLsbD i).toNat + (y.getLsbD i).toNat + (z.getLsbD i).toNat)

/-- 42_compression.md R103: one round, with T1 and T2 as sums modulo 2^32, and equal to the source's sequential
assignments h=g; g=f; f=e; e=d+T1; d=c; c=b; b=a; a=T1+T2. -/
def Obligations.RoundReplacesTheVariables : Prop :=
  ∀ (v : Vars) (k w : Word), ∃ t1 t2 : Word,
    t1.toNat = (v.h.toNat + (bsig1 v.e).toNat + (ch v.e v.f v.g).toNat + k.toNat + w.toNat) % 2 ^ 32 ∧
    t2.toNat = ((bsig0 v.a).toNat + (maj v.a v.b v.c).toNat) % 2 ^ 32 ∧
    (oneRound v k w).a.toNat = (t1.toNat + t2.toNat) % 2 ^ 32 ∧ (oneRound v k w).e.toNat = (v.d.toNat + t1.toNat) % 2 ^ 32 ∧
    (oneRound v k w).b = v.a ∧ (oneRound v k w).c = v.b ∧ (oneRound v k w).d = v.c ∧
    (oneRound v k w).f = v.e ∧ (oneRound v k w).g = v.f ∧ (oneRound v k w).h = v.g ∧
    (let v1 := { v with h := v.g }
     let v2 := { v1 with g := v1.f }
     let v3 := { v2 with f := v2.e }
     let v4 := { v3 with e := v3.d + t1 }
     let v5 := { v4 with d := v4.c }
     let v6 := { v5 with c := v5.b }
     let v7 := { v6 with b := v6.a }
     oneRound v k w = { v7 with a := t1 + t2 })

/-- 42_compression.md R104: the 64 rounds start from a..h = H[0..7], and round i uses K[i] and W[i], in increasing i. On
the core they replace a..h and nothing else. -/
def Obligations.RoundsRunInOrder : Prop :=
  (∀ (hin : HashState) (w : Schedule), ∃ v : Nat → Vars,
    v 0 = ⟨hin[0], hin[1], hin[2], hin[3], hin[4], hin[5], hin[6], hin[7]⟩ ∧
    (∀ (i : Nat) (_ : i < 64), v (i + 1) = oneRound (v i) Config.roundConstants[i] w[i]) ∧ rounds hin w = v 64) ∧
  (∀ c : CoreState, c.roundsOp = { c with vars := rounds c.h c.w })

/-- The round constants have the values of the table of 42_compression.md R101, which the spec took from general knowledge
(log entry 9). -/
def Obligations.RoundConstantsHaveTheirValues : Prop :=
  Config.roundConstants.toList =
    [0x428A2F98, 0x71374491, 0xB5C0FBCF, 0xE9B5DBA5, 0x3956C25B, 0x59F111F1, 0x923F82A4, 0xAB1C5ED5,
     0xD807AA98, 0x12835B01, 0x243185BE, 0x550C7DC3, 0x72BE5D74, 0x80DEB1FE, 0x9BDC06A7, 0xC19BF174] ++
    [0xE49B69C1, 0xEFBE4786, 0x0FC19DC6, 0x240CA1CC, 0x2DE92C6F, 0x4A7484AA, 0x5CB0A9DC, 0x76F988DA,
     0x983E5152, 0xA831C66D, 0xB00327C8, 0xBF597FC7, 0xC6E00BF3, 0xD5A79147, 0x06CA6351, 0x14292967] ++
    [0x27B70A85, 0x2E1B2138, 0x4D2C6DFC, 0x53380D13, 0x650A7354, 0x766A0ABB, 0x81C2C92E, 0x92722C85,
     0xA2BFE8A1, 0xA81A664B, 0xC24B8B70, 0xC76C51A3, 0xD192E819, 0xD6990624, 0xF40E3585, 0x106AA070] ++
    [0x19A4C116, 0x1E376C08, 0x2748774C, 0x34B0BCB5, 0x391C0CB3, 0x4ED8AA4A, 0x5B9CCA4F, 0x682E6FF3,
     0x748F82EE, 0x78A5636F, 0x84C87814, 0x8CC70208, 0x90BEFFFA, 0xA4506CEB, 0xBEF9A3F7, 0xC67178F2]

/-- 41_schedule.md R92: the first 16 words are the block read as big-endian words; the others are left, and so is the
rest of the core. -/
def Obligations.ScheduleLoadsBigEndian : Prop :=
  (∀ (b : Block) (w : Schedule),
    (∀ (j : Nat) (_ : j < 16), (schedLoad b w)[j].toNat =
      b[4 * j].toNat * 2 ^ 24 + b[4 * j + 1].toNat * 2 ^ 16 + b[4 * j + 2].toNat * 2 ^ 8 + b[4 * j + 3].toNat) ∧
    (∀ (i : Nat) (_ : i < 64), 16 ≤ i → (schedLoad b w)[i] = w[i])) ∧
  (∀ c : CoreState, c.schedLoadOp = { c with w := schedLoad c.buf c.w })

/-- 41_schedule.md R93: the first 16 words stay, and each of the other 48 is the sum of four older words of the SAME
finished schedule, with ssig0 on W[i-15] and ssig1 on W[i-2]. On the core only W changes. -/
def Obligations.ScheduleExpandsByRecurrence : Prop :=
  (∀ (w : Schedule) (i : Nat) (_ : i < 64),
    (i < 16 → (schedExpand w)[i] = w[i]) ∧
    (16 ≤ i → (schedExpand w)[i] =
      ssig0 (schedExpand w)[i - 15] + ssig1 (schedExpand w)[i - 2] + (schedExpand w)[i - 7] + (schedExpand w)[i - 16])) ∧
  (∀ c : CoreState, c.schedExpandOp = { c with w := schedExpand c.w })

/-- The schedule of a block depends on that block only, never on an earlier schedule (41_schedule.md R94). -/
def Obligations.ScheduleDependsOnItsBlockOnly : Prop :=
  ∀ (b : Block) (w : Schedule), schedExpand (schedLoad b w) = sched b

/-- BlockProcess: H <- Compress(H, BUF), W and a..h are left at the block's schedule and last variables, and BUF, N, LEN,
DG, HEX, HEXV, FIN stay (42_compression.md R106). -/
def Obligations.BlockProcessNetEffect : Prop :=
  ∀ c : CoreState, c.blockProcess =
    { c with h := compress c.h c.buf, w := sched c.buf, vars := rounds c.h (sched c.buf) }

/-- 43_accumulate.md R117: each word of H gains its variable, by position, modulo 2^32. -/
def Obligations.AccumulateByPosition : Prop :=
  ∀ (hin : HashState) (v : Vars),
    (accum hin v)[0].toNat = (hin[0].toNat + v.a.toNat) % 2 ^ 32 ∧
    (accum hin v)[1].toNat = (hin[1].toNat + v.b.toNat) % 2 ^ 32 ∧
    (accum hin v)[2].toNat = (hin[2].toNat + v.c.toNat) % 2 ^ 32 ∧
    (accum hin v)[3].toNat = (hin[3].toNat + v.d.toNat) % 2 ^ 32 ∧
    (accum hin v)[4].toNat = (hin[4].toNat + v.e.toNat) % 2 ^ 32 ∧
    (accum hin v)[5].toNat = (hin[5].toNat + v.f.toNat) % 2 ^ 32 ∧
    (accum hin v)[6].toNat = (hin[6].toNat + v.g.toNat) % 2 ^ 32 ∧
    (accum hin v)[7].toNat = (hin[7].toNat + v.h.toNat) % 2 ^ 32 ∧
    (∀ c : CoreState, c.accumOp = { c with h := accum c.h c.vars })

/-- Blocks are chained left to right: the state after a list of blocks is carried into the blocks after it
(43_accumulate.md R118). -/
def Obligations.ChainCarriesTheState : Prop :=
  ∀ (hin : HashState) (xs ys : List Block),
    chain hin [] = hin ∧ chain hin (xs ++ ys) = chain (chain hin xs) ys ∧
    ∀ b, chain hin (xs ++ [b]) = compress (chain hin xs) b

/-! ## Serializer and hex encoder -/

/-- 44_serialize_hex.md R126: word k is bytes 4k..4k+3 in both modes, most significant byte first, or least significant
first when `le`. -/
def Obligations.SerializeOrdersBytes : Prop :=
  ∀ (hs : HashState) (k j : Nat) (_ : k < 8) (_ : j < 4),
    (serialize hs false)[4 * k + j] = hs[k].extractLsb' (24 - 8 * j) 8 ∧
    (serialize hs true)[4 * k + j] = hs[k].extractLsb' (8 * j) 8

/-- The second mode reverses the bytes inside each word and keeps the words' order (44_serialize_hex.md R128). -/
def Obligations.SwapStaysWithinWords : Prop :=
  ∀ (hs : HashState) (k j : Nat) (_ : k < 8) (_ : j < 4),
    (serialize hs true)[4 * k + j] = (serialize hs false)[4 * k + (3 - j)]

/-- 0..9 are '0'..'9', 10..15 are 'a'..'f', as ASCII codes (44_serialize_hex.md R129). The numeric codes are those R129
marks as from general knowledge (log entry 9). -/
def Obligations.HexDigitsAreLowerCaseAscii : Prop :=
  ∀ n : BitVec 4,
    (n.toNat ≤ 9 → (hexDigit n).toNat = 0x30 + n.toNat) ∧
    (10 ≤ n.toNat → (hexDigit n).toNat = 0x61 + (n.toNat - 10)) ∧ isHexCode (hexDigit n) = true

/-- Characters 2j and 2j+1 are the high and the low digit of byte j (44_serialize_hex.md R130). That the high one comes
first is what R130 says "is not said in words; it is the usual reading of "two hex digits"", which the spec marks as
derived from the known digests and as its own decision D17. -/
def Obligations.HexPairsHighNibbleFirst : Prop :=
  ∀ (d : Digest) (j : Nat) (_ : j < 32),
    (hexEnc d)[2 * j] = hexDigit (d[j].extractLsb' 4 4) ∧ (hexEnc d)[2 * j + 1] = hexDigit (d[j].extractLsb' 0 4)

/-- The two output forms of one message differ by the order of the character pairs inside each group of eight
(44_serialize_hex.md R135, marked there as derived). -/
def Obligations.TwoFormsOfOneDigest : Prop :=
  ∀ (m : List Byte) (k j t : Nat) (_ : k < 8) (_ : j < 4) (_ : t < 2),
    (hashOf m true)[8 * k + 2 * j + t] = (hashOf m false)[8 * k + 2 * (3 - j) + t]

/-- Every character of every output string is one of 0-9, a-f, for every message and both forms (44_serialize_hex.md
R133, R137). -/
def Obligations.OutputIsHexDigits : Prop :=
  ∀ (m : List Byte) (le : Bool) (i : Nat) (_ : i < 64), isHexCode (hashOf m le)[i] = true

/-! ## Padding -/

/-- Pad(M) is M, 0x80, zeros up to the last 8 bytes, and the bit length modulo 2^64, big-endian; its length is 64 times
floor((n + 8) / 64) + 1, the number of its blocks (40_padding.md R80 to R82, R81 marked there as derived). -/
def Obligations.PaddingShape : Prop :=
  ∀ m : List Byte,
    (pad m).length = 64 * ((m.length + 8) / 64 + 1) ∧ (blocks (pad m)).length = (m.length + 8) / 64 + 1 ∧
    (∀ i, i < m.length → (pad m)[i]? = m[i]?) ∧ (pad m)[m.length]? = some 0x80 ∧
    (∀ i, m.length < i → i < (pad m).length - 8 → (pad m)[i]? = some 0) ∧
    (∀ j, j < 8 → (pad m)[(pad m).length - 8 + j]? =
      some (BitVec.ofNat 8 (8 * m.length % 2 ^ 64 / 2 ^ (56 - 8 * j))))

/-! ## The whole machine -/

/-- The reset state meets the invariants (10_state.md R36). -/
def Obligations.ResetMeetsTheInvariants : Prop := State.reset.core.Inv

/-- Every step keeps the invariants of 10_state.md R36 (marked there as derived): a valid string is the hex of DG, and a
finalized message has its string and an empty buffer. -/
def Obligations.EveryStepKeepsTheInvariants : Prop :=
  ∀ s t : State, s.core.Inv → step s = .next t → t.core.Inv

/-- H is written only by reset and INIT, to H0, and by the accumulate step (43_accumulate.md R120): of BLOCK, over BUF; of
the 64th PUSH, over the buffer it fills; and of FINAL, over the last padded block, which it leaves in BUF, and before it,
exactly when N is 56 or more, over the pushed bytes, 0x80 and zeros. -/
def Obligations.HashStateWriters : Prop :=
  ∀ s t : State, step s = .next t → t.core.h ≠ s.core.h →
    (∃ rest, s.inputs = .reset :: rest ∧ t.core.h = Config.initialHash) ∨
    ∃ c i rest, s.inputs = .command c :: rest ∧ decode c = .legal i ∧
      ((i = .init ∧ t.core.h = Config.initialHash) ∨
       (i = .block ∧ t.core.h = compress s.core.h s.core.buf) ∨
       (∃ b, i = .push b ∧ s.core.fin = false ∧ s.core.n = 63 ∧
         t.core.h = compress s.core.h (writeAt s.core.buf s.core.n b)) ∨
       (∃ le, i = .final le ∧ s.core.fin = false ∧
         t.core.h =
           if s.core.n.toNat < 56 then compress s.core.h t.core.buf
           else compress (compress s.core.h (zeroFill (writeAt s.core.buf s.core.n 0x80) (s.core.n.toNat + 1) 63)) t.core.buf))

/-- 10_state.md R24: HEXV is set by DIGEST and by a FINAL that completes, FIN by a FINAL that completes; reset and INIT
clear both; no other command changes them. -/
def Obligations.FlagWriters : Prop :=
  ∀ (s : State) (a : HostAction) (rest : List HostAction), s.inputs = a :: rest → ∃ t, step s = .next t ∧
    match a with
    | .idle => t.core.hexv = s.core.hexv ∧ t.core.fin = s.core.fin
    | .reset => t.core.hexv = false ∧ t.core.fin = false
    | .command c =>
      match decode c with
      | .legal .init => t.core.hexv = false ∧ t.core.fin = false
      | .legal (.final _) => (s.core.fin = false → t.core.hexv = true) ∧ (s.core.fin = true → t.core.hexv = s.core.hexv) ∧
          t.core.fin = true
      | .legal (.digest _) => t.core.hexv = true ∧ t.core.fin = s.core.fin
      | .legal .nop | .legal (.push _) | .legal .block | .legal (.rdhex _) | .legal .rdstat | .legal (.ldb _ _)
      | .illegal _ => t.core.hexv = s.core.hexv ∧ t.core.fin = s.core.fin

/-- W, a..h and DG are never read before they are written: two machines that differ only in them answer every move alike
and again differ at most in them (10_state.md R33). -/
def Obligations.HiddenRegistersAreNeverRead : Prop :=
  ∀ s₁ s₂ t₁ : State, s₁.core.SameButHidden s₂.core → s₁.inputs = s₂.inputs → s₁.responses = s₂.responses →
    step s₁ = .next t₁ → ∃ t₂, step s₂ = .next t₂ ∧ t₁.core.SameButHidden t₂.core ∧ t₁.inputs = t₂.inputs ∧
      t₁.responses = t₂.responses

/-- After INIT and any mix of PUSH commands with NOP, RDSTAT, RDHEX, DIGEST, from any state: N, LEN, the filled part of
BUF and H are those of the bytes pushed (40_padding.md R84, marked there as derived; 10_state.md R36 item 4). -/
def Obligations.MessageSoFar : Prop :=
  ∀ (s : State) (p : List Instr), (∀ i ∈ p, i.isReading = true ∨ ∃ b, i = .push b) →
    ∃ t, runCommands (.init :: p) s = .next t ∧
      t.core.n.toNat = (pushedBytes p).length % 64 ∧
      t.core.len = BitVec.ofNat 64 (8 * (pushedBytes p).length) ∧
      (∀ (j : Nat) (_ : j < 64), j < t.core.n.toNat →
        some t.core.buf[j] = (pushedBytes p)[64 * ((pushedBytes p).length / 64) + j]?) ∧
      t.core.h = chain Config.initialHash (blocks (pushedBytes p)) ∧ t.core.fin = false

/-- Message mode computes the source's function: from any state, INIT, a PUSH for each byte of the message, FINAL and 64
RDHEX are all answered without error, and the characters read are Hash(M, le) (40_padding.md R86, 44_serialize_hex.md
R133, 60_exceptions.md R159). -/
def Obligations.MessageModeComputesTheHash : Prop :=
  ∀ (s : State) (m : List Byte) (le : Bool), ∃ t,
    runCommands (hashCommands m le ++ rdstrCommands) s = .next t ∧
    t.responses = s.responses ++ List.replicate (m.length + 2) ⟨false, 0x00⟩ ++
      (hashOf m le).toList.map (fun d => ⟨false, d⟩) ∧
    t.core.h = chain Config.initialHash (blocks (pad m)) ∧ t.core.hexv = true ∧ t.core.fin = true ∧ t.core.n = 0

/-- Raw mode computes it too: from any state, INIT, the blocks of Pad(M) each loaded whole, its bytes in any order, and
processed, DIGEST and 64 RDHEX read Hash(M, le); N, LEN and FIN stay 0 (40_padding.md R88, 70_reset_and_hazards.md
R175). -/
def Obligations.RawModeComputesTheHash : Prop :=
  ∀ (s : State) (m : List Byte) (le : Bool) (loads : List (List (BitVec 6 × Byte))),
    loadsBlocks loads (blocks (pad m)) → ∃ t,
      runCommands (.init :: loads.flatMap rawCommands ++ [.digest le] ++ rdstrCommands) s = .next t ∧
      t.responses = s.responses ++ List.replicate ((loads.flatMap rawCommands).length + 2) ⟨false, 0x00⟩ ++
        (hashOf m le).toList.map (fun d => ⟨false, d⟩) ∧
      t.core.n = 0 ∧ t.core.len = 0 ∧ t.core.fin = false

/-- After INIT the responses of a transaction do not depend on anything before it: two machines with the same earlier
responses have the same responses after it, in message mode for any mix of its commands, in raw mode when every block is
loaded whole, its bytes in any order (70_reset_and_hazards.md R175, R176, 00_scope.md R18). -/
def Obligations.TransactionsAreIndependent : Prop :=
  ∀ s₁ s₂ : State, s₁.responses = s₂.responses →
    (∀ p : List Instr, (∀ i ∈ p, i.inMessageMode = true) → ∃ t₁ t₂,
      runCommands (.init :: p) s₁ = .next t₁ ∧ runCommands (.init :: p) s₂ = .next t₂ ∧
        t₁.responses = t₂.responses) ∧
    (∀ (loads : List (List (BitVec 6 × Byte))) (p : List Instr), (∀ l ∈ loads, namesEveryIndex l) →
      (∀ i ∈ p, i.isReading = true) → ∃ t₁ t₂,
        runCommands (.init :: loads.flatMap rawCommands ++ p) s₁ = .next t₁ ∧
          runCommands (.init :: loads.flatMap rawCommands ++ p) s₂ = .next t₂ ∧ t₁.responses = t₂.responses)
end

