-- ==== Sys2Proof/Laws/Compute.lean ====
section
/-! SUPPORT. The loops of the computation as folds, and the elements of the arrays that are written all at once. A proof
rewrites with these instead of unfolding a loop in place. -/

namespace Sys2Proof.Machine

theorem schedLoad_eq_foldl (b : Block) (w : Schedule) :
    schedLoad b w = (List.finRange 16).foldl (fun w j => w.set j.val (memRead4 b (4 * j.val) (by omega))) w := rfl

theorem schedExpand_eq_foldl (w : Schedule) : schedExpand w = (List.finRange 48).foldl schedStep w := rfl

theorem rounds_eq_foldl (hin : HashState) (w : Schedule) :
    rounds hin w =
      (List.finRange 64).foldl (fun v i => oneRound v Config.roundConstants[i.val] w[i.val]) (Vars.ofHash hin) := rfl

/-- A fold over a list passes through a sequence of values, one for each element. -/
theorem foldl_trace {α β : Type} (f : β → α → β) (b : β) (l : List α) :
    ∃ v : Nat → β, v 0 = b ∧ (∀ (i : Nat) (h : i < l.length), v (i + 1) = f (v i) l[i]) ∧ l.foldl f b = v l.length := by
  induction l generalizing b with
  | nil => exact ⟨fun _ => b, rfl, by simp, rfl⟩
  | cons a l ih =>
    obtain ⟨v, h0, h1, h2⟩ := ih (f b a)
    refine ⟨fun n => match n with | 0 => b | n + 1 => v n, rfl, ?_, by simpa using h2⟩
    intro i h
    cases i with
    | zero => simp [h0]
    | succ i => simpa using h1 i (by simpa using h)

/-- `be32` as the sum of 00_scope.md R11. -/
theorem be32_toNat (b0 b1 b2 b3 : Byte) :
    (be32 b0 b1 b2 b3).toNat = b0.toNat * 2 ^ 24 + b1.toNat * 2 ^ 16 + b2.toNat * 2 ^ 8 + b3.toNat := by
  have h0 := b0.isLt
  have h1 := b1.isLt
  have h2 := b2.isLt
  have h3 := b3.isLt
  have shl : ∀ (b : Byte) (k : Nat), k ≤ 24 → (b.setWidth 32 <<< k).toNat = b.toNat * 2 ^ k := by
    intro b k hk
    have hb := b.isLt
    have : 2 ^ k ≤ 2 ^ 24 := Nat.pow_le_pow_right (by omega) hk
    rw [BitVec.toNat_shiftLeft, BitVec.toNat_setWidth, Nat.mod_eq_of_lt (a := b.toNat) (by omega), Nat.shiftLeft_eq,
      Nat.mod_eq_of_lt]
    calc b.toNat * 2 ^ k < 2 ^ 8 * 2 ^ k := Nat.mul_lt_mul_of_pos_right hb (by positivity)
      _ ≤ 2 ^ 8 * 2 ^ 24 := Nat.mul_le_mul_left _ this
  have or_add : ∀ x y k : Nat, y < 2 ^ k → x * 2 ^ k ||| y = x * 2 ^ k + y := by
    intro x y k h
    rw [Nat.mul_comm, ← Nat.two_pow_add_eq_or_of_lt h]
  unfold be32
  rw [BitVec.toNat_or, BitVec.toNat_or, BitVec.toNat_or, shl _ _ (by omega), shl _ _ (by omega), shl _ _ (by omega),
    BitVec.toNat_setWidth, Nat.mod_eq_of_lt (a := b3.toNat) (by omega), or_add _ _ 24 (by omega),
    show b0.toNat * 2 ^ 24 + b1.toNat * 2 ^ 16 = (b0.toNat * 2 ^ 8 + b1.toNat) * 2 ^ 16 by omega, or_add _ _ 16 (by omega),
    show (b0.toNat * 2 ^ 8 + b1.toNat) * 2 ^ 16 + b2.toNat * 2 ^ 8 =
      ((b0.toNat * 2 ^ 8 + b1.toNat) * 2 ^ 8 + b2.toNat) * 2 ^ 8 by omega, or_add _ _ 8 (by omega)]

theorem getElem_be64bytes (l : BitVec 64) (j : Nat) (h : j < 8) :
    (be64bytes l)[j] = l.extractLsb' (56 - 8 * j) 8 := by simp [be64bytes]

theorem getElem_serialize (hs : HashState) (le : Bool) (m : Nat) (h : m < 32) :
    (serialize hs le)[m] = byteOf hs[m / 4] (if le then 3 - m % 4 else m % 4) := by simp [serialize]

theorem getElem_hexEnc (d : Digest) (i : Nat) (h : i < 64) :
    (hexEnc d)[i] = hexDigit (if i % 2 = 0 then d[i / 2].extractLsb' 4 4 else d[i / 2].extractLsb' 0 4) := by
  simp [hexEnc]

end Sys2Proof.Machine
end

