-- ==== Sys2Proof/Laws/Ops.lean ====
section
/-! SUPPORT. What the shared operations on the 64-byte arrays do, element by element. -/

namespace Sys2Proof.Machine

/-- A write is read back. -/
@[simp] theorem readAt_writeAt_self {α : Type} (x : Vector α 64) (i : BitVec 6) (v : α) :
    readAt (writeAt x i v) i = v := by simp [readAt, writeAt]

/-- A write leaves every other element. -/
theorem readAt_writeAt_ne {α : Type} (x : Vector α 64) {i j : BitVec 6} (v : α) (h : i ≠ j) :
    readAt (writeAt x i v) j = readAt x j := by
  have : i.toNat ≠ j.toNat := fun e => h (BitVec.eq_of_toNat_eq e)
  simp [readAt, writeAt, this]

/-- The elements after a write. -/
theorem getElem_writeAt {α : Type} (x : Vector α 64) (i : BitVec 6) (v : α) (j : Nat) (h : j < 64) :
    (writeAt x i v)[j] = if j = i.toNat then v else x[j] := by
  simp only [writeAt, Vector.getElem_set, eq_comm]

/-- Writing what is there changes nothing. -/
@[simp] theorem writeAt_readAt {α : Type} (x : Vector α 64) (i : BitVec 6) : writeAt x i (readAt x i) = x := by
  apply Vector.ext
  intro j h
  rw [getElem_writeAt]
  split <;> simp_all [readAt]

/-- The later of two writes to one index wins. -/
@[simp] theorem writeAt_writeAt {α : Type} (x : Vector α 64) (i : BitVec 6) (v v' : α) :
    writeAt (writeAt x i v) i v' = writeAt x i v' := by
  apply Vector.ext
  intro j h
  simp only [getElem_writeAt]
  split <;> rfl

/-- The elements after MemWrite. -/
theorem getElem_memWrite {n : Nat} (x : Block) (i : Nat) (bytes : Vector Byte n) (j : Nat) (h : j < 64) :
    (memWrite x i bytes)[j] = if _ : i ≤ j ∧ j < i + n then bytes[j - i] else x[j] := by
  simp [memWrite]

/-- The elements after a zero fill. -/
theorem getElem_zeroFill (x : Block) (lo hi j : Nat) (h : j < 64) :
    (zeroFill x lo hi)[j] = if lo ≤ j ∧ j ≤ hi then 0 else x[j] := by
  simp [zeroFill]

end Sys2Proof.Machine
end

