-- ==== Sys2Proof/Laws/State.lean ====
section
/-! SUPPORT. One lemma per field per update of the state: what an update writes, and what it leaves. No later proof
unfolds an update. The proofs go through `cases` on purpose: a `simp` lemma that is `rfl` as a term leaves no trace in a
proof, and the kernel would then compare hash computations by running them. The new W of BlockProcess stands here as
written over the old W; that the old W does not matter is one of the statements (41_schedule.md R94). -/

namespace Sys2Proof.Machine

section setH
variable (c : CoreState) (v : HashState)
@[simp] theorem CoreState.setH_h : (c.setH v).h = v := by cases c; rfl
@[simp] theorem CoreState.setH_vars : (c.setH v).vars = c.vars := by cases c; rfl
@[simp] theorem CoreState.setH_w : (c.setH v).w = c.w := by cases c; rfl
@[simp] theorem CoreState.setH_buf : (c.setH v).buf = c.buf := by cases c; rfl
@[simp] theorem CoreState.setH_n : (c.setH v).n = c.n := by cases c; rfl
@[simp] theorem CoreState.setH_len : (c.setH v).len = c.len := by cases c; rfl
@[simp] theorem CoreState.setH_dg : (c.setH v).dg = c.dg := by cases c; rfl
@[simp] theorem CoreState.setH_hex : (c.setH v).hex = c.hex := by cases c; rfl
@[simp] theorem CoreState.setH_hexv : (c.setH v).hexv = c.hexv := by cases c; rfl
@[simp] theorem CoreState.setH_fin : (c.setH v).fin = c.fin := by cases c; rfl
end setH

section setVars
variable (c : CoreState) (v : Vars)
@[simp] theorem CoreState.setVars_h : (c.setVars v).h = c.h := by cases c; rfl
@[simp] theorem CoreState.setVars_vars : (c.setVars v).vars = v := by cases c; rfl
@[simp] theorem CoreState.setVars_w : (c.setVars v).w = c.w := by cases c; rfl
@[simp] theorem CoreState.setVars_buf : (c.setVars v).buf = c.buf := by cases c; rfl
@[simp] theorem CoreState.setVars_n : (c.setVars v).n = c.n := by cases c; rfl
@[simp] theorem CoreState.setVars_len : (c.setVars v).len = c.len := by cases c; rfl
@[simp] theorem CoreState.setVars_dg : (c.setVars v).dg = c.dg := by cases c; rfl
@[simp] theorem CoreState.setVars_hex : (c.setVars v).hex = c.hex := by cases c; rfl
@[simp] theorem CoreState.setVars_hexv : (c.setVars v).hexv = c.hexv := by cases c; rfl
@[simp] theorem CoreState.setVars_fin : (c.setVars v).fin = c.fin := by cases c; rfl
end setVars

section setW
variable (c : CoreState) (v : Schedule)
@[simp] theorem CoreState.setW_h : (c.setW v).h = c.h := by cases c; rfl
@[simp] theorem CoreState.setW_vars : (c.setW v).vars = c.vars := by cases c; rfl
@[simp] theorem CoreState.setW_w : (c.setW v).w = v := by cases c; rfl
@[simp] theorem CoreState.setW_buf : (c.setW v).buf = c.buf := by cases c; rfl
@[simp] theorem CoreState.setW_n : (c.setW v).n = c.n := by cases c; rfl
@[simp] theorem CoreState.setW_len : (c.setW v).len = c.len := by cases c; rfl
@[simp] theorem CoreState.setW_dg : (c.setW v).dg = c.dg := by cases c; rfl
@[simp] theorem CoreState.setW_hex : (c.setW v).hex = c.hex := by cases c; rfl
@[simp] theorem CoreState.setW_hexv : (c.setW v).hexv = c.hexv := by cases c; rfl
@[simp] theorem CoreState.setW_fin : (c.setW v).fin = c.fin := by cases c; rfl
end setW

section setBuf
variable (c : CoreState) (v : Block)
@[simp] theorem CoreState.setBuf_h : (c.setBuf v).h = c.h := by cases c; rfl
@[simp] theorem CoreState.setBuf_vars : (c.setBuf v).vars = c.vars := by cases c; rfl
@[simp] theorem CoreState.setBuf_w : (c.setBuf v).w = c.w := by cases c; rfl
@[simp] theorem CoreState.setBuf_buf : (c.setBuf v).buf = v := by cases c; rfl
@[simp] theorem CoreState.setBuf_n : (c.setBuf v).n = c.n := by cases c; rfl
@[simp] theorem CoreState.setBuf_len : (c.setBuf v).len = c.len := by cases c; rfl
@[simp] theorem CoreState.setBuf_dg : (c.setBuf v).dg = c.dg := by cases c; rfl
@[simp] theorem CoreState.setBuf_hex : (c.setBuf v).hex = c.hex := by cases c; rfl
@[simp] theorem CoreState.setBuf_hexv : (c.setBuf v).hexv = c.hexv := by cases c; rfl
@[simp] theorem CoreState.setBuf_fin : (c.setBuf v).fin = c.fin := by cases c; rfl
end setBuf

section setN
variable (c : CoreState) (v : BitVec 6)
@[simp] theorem CoreState.setN_h : (c.setN v).h = c.h := by cases c; rfl
@[simp] theorem CoreState.setN_vars : (c.setN v).vars = c.vars := by cases c; rfl
@[simp] theorem CoreState.setN_w : (c.setN v).w = c.w := by cases c; rfl
@[simp] theorem CoreState.setN_buf : (c.setN v).buf = c.buf := by cases c; rfl
@[simp] theorem CoreState.setN_n : (c.setN v).n = v := by cases c; rfl
@[simp] theorem CoreState.setN_len : (c.setN v).len = c.len := by cases c; rfl
@[simp] theorem CoreState.setN_dg : (c.setN v).dg = c.dg := by cases c; rfl
@[simp] theorem CoreState.setN_hex : (c.setN v).hex = c.hex := by cases c; rfl
@[simp] theorem CoreState.setN_hexv : (c.setN v).hexv = c.hexv := by cases c; rfl
@[simp] theorem CoreState.setN_fin : (c.setN v).fin = c.fin := by cases c; rfl
end setN

section setLen
variable (c : CoreState) (v : BitVec 64)
@[simp] theorem CoreState.setLen_h : (c.setLen v).h = c.h := by cases c; rfl
@[simp] theorem CoreState.setLen_vars : (c.setLen v).vars = c.vars := by cases c; rfl
@[simp] theorem CoreState.setLen_w : (c.setLen v).w = c.w := by cases c; rfl
@[simp] theorem CoreState.setLen_buf : (c.setLen v).buf = c.buf := by cases c; rfl
@[simp] theorem CoreState.setLen_n : (c.setLen v).n = c.n := by cases c; rfl
@[simp] theorem CoreState.setLen_len : (c.setLen v).len = v := by cases c; rfl
@[simp] theorem CoreState.setLen_dg : (c.setLen v).dg = c.dg := by cases c; rfl
@[simp] theorem CoreState.setLen_hex : (c.setLen v).hex = c.hex := by cases c; rfl
@[simp] theorem CoreState.setLen_hexv : (c.setLen v).hexv = c.hexv := by cases c; rfl
@[simp] theorem CoreState.setLen_fin : (c.setLen v).fin = c.fin := by cases c; rfl
end setLen

section setDg
variable (c : CoreState) (v : Digest)
@[simp] theorem CoreState.setDg_h : (c.setDg v).h = c.h := by cases c; rfl
@[simp] theorem CoreState.setDg_vars : (c.setDg v).vars = c.vars := by cases c; rfl
@[simp] theorem CoreState.setDg_w : (c.setDg v).w = c.w := by cases c; rfl
@[simp] theorem CoreState.setDg_buf : (c.setDg v).buf = c.buf := by cases c; rfl
@[simp] theorem CoreState.setDg_n : (c.setDg v).n = c.n := by cases c; rfl
@[simp] theorem CoreState.setDg_len : (c.setDg v).len = c.len := by cases c; rfl
@[simp] theorem CoreState.setDg_dg : (c.setDg v).dg = v := by cases c; rfl
@[simp] theorem CoreState.setDg_hex : (c.setDg v).hex = c.hex := by cases c; rfl
@[simp] theorem CoreState.setDg_hexv : (c.setDg v).hexv = c.hexv := by cases c; rfl
@[simp] theorem CoreState.setDg_fin : (c.setDg v).fin = c.fin := by cases c; rfl
end setDg

section setHex
variable (c : CoreState) (v : HexString)
@[simp] theorem CoreState.setHex_h : (c.setHex v).h = c.h := by cases c; rfl
@[simp] theorem CoreState.setHex_vars : (c.setHex v).vars = c.vars := by cases c; rfl
@[simp] theorem CoreState.setHex_w : (c.setHex v).w = c.w := by cases c; rfl
@[simp] theorem CoreState.setHex_buf : (c.setHex v).buf = c.buf := by cases c; rfl
@[simp] theorem CoreState.setHex_n : (c.setHex v).n = c.n := by cases c; rfl
@[simp] theorem CoreState.setHex_len : (c.setHex v).len = c.len := by cases c; rfl
@[simp] theorem CoreState.setHex_dg : (c.setHex v).dg = c.dg := by cases c; rfl
@[simp] theorem CoreState.setHex_hex : (c.setHex v).hex = v := by cases c; rfl
@[simp] theorem CoreState.setHex_hexv : (c.setHex v).hexv = c.hexv := by cases c; rfl
@[simp] theorem CoreState.setHex_fin : (c.setHex v).fin = c.fin := by cases c; rfl
end setHex

section setHexv
variable (c : CoreState) (v : Bool)
@[simp] theorem CoreState.setHexv_h : (c.setHexv v).h = c.h := by cases c; rfl
@[simp] theorem CoreState.setHexv_vars : (c.setHexv v).vars = c.vars := by cases c; rfl
@[simp] theorem CoreState.setHexv_w : (c.setHexv v).w = c.w := by cases c; rfl
@[simp] theorem CoreState.setHexv_buf : (c.setHexv v).buf = c.buf := by cases c; rfl
@[simp] theorem CoreState.setHexv_n : (c.setHexv v).n = c.n := by cases c; rfl
@[simp] theorem CoreState.setHexv_len : (c.setHexv v).len = c.len := by cases c; rfl
@[simp] theorem CoreState.setHexv_dg : (c.setHexv v).dg = c.dg := by cases c; rfl
@[simp] theorem CoreState.setHexv_hex : (c.setHexv v).hex = c.hex := by cases c; rfl
@[simp] theorem CoreState.setHexv_hexv : (c.setHexv v).hexv = v := by cases c; rfl
@[simp] theorem CoreState.setHexv_fin : (c.setHexv v).fin = c.fin := by cases c; rfl
end setHexv

section setFin
variable (c : CoreState) (v : Bool)
@[simp] theorem CoreState.setFin_h : (c.setFin v).h = c.h := by cases c; rfl
@[simp] theorem CoreState.setFin_vars : (c.setFin v).vars = c.vars := by cases c; rfl
@[simp] theorem CoreState.setFin_w : (c.setFin v).w = c.w := by cases c; rfl
@[simp] theorem CoreState.setFin_buf : (c.setFin v).buf = c.buf := by cases c; rfl
@[simp] theorem CoreState.setFin_n : (c.setFin v).n = c.n := by cases c; rfl
@[simp] theorem CoreState.setFin_len : (c.setFin v).len = c.len := by cases c; rfl
@[simp] theorem CoreState.setFin_dg : (c.setFin v).dg = c.dg := by cases c; rfl
@[simp] theorem CoreState.setFin_hex : (c.setFin v).hex = c.hex := by cases c; rfl
@[simp] theorem CoreState.setFin_hexv : (c.setFin v).hexv = c.hexv := by cases c; rfl
@[simp] theorem CoreState.setFin_fin : (c.setFin v).fin = v := by cases c; rfl
end setFin

section startTransaction
variable (c : CoreState)
@[simp] theorem CoreState.startTransaction_h : c.startTransaction.h = Config.initialHash := by
  simp [CoreState.startTransaction, CoreState.clearFlags]
@[simp] theorem CoreState.startTransaction_vars : c.startTransaction.vars = c.vars := by
  simp [CoreState.startTransaction, CoreState.clearFlags]
@[simp] theorem CoreState.startTransaction_w : c.startTransaction.w = c.w := by
  simp [CoreState.startTransaction, CoreState.clearFlags]
@[simp] theorem CoreState.startTransaction_buf : c.startTransaction.buf = c.buf := by
  simp [CoreState.startTransaction, CoreState.clearFlags]
@[simp] theorem CoreState.startTransaction_n : c.startTransaction.n = 0 := by
  simp [CoreState.startTransaction, CoreState.clearFlags]
@[simp] theorem CoreState.startTransaction_len : c.startTransaction.len = 0 := by
  simp [CoreState.startTransaction, CoreState.clearFlags]
@[simp] theorem CoreState.startTransaction_dg : c.startTransaction.dg = c.dg := by
  simp [CoreState.startTransaction, CoreState.clearFlags]
@[simp] theorem CoreState.startTransaction_hex : c.startTransaction.hex = c.hex := by
  simp [CoreState.startTransaction, CoreState.clearFlags]
@[simp] theorem CoreState.startTransaction_hexv : c.startTransaction.hexv = false := by
  simp [CoreState.startTransaction, CoreState.clearFlags]
@[simp] theorem CoreState.startTransaction_fin : c.startTransaction.fin = false := by
  simp [CoreState.startTransaction, CoreState.clearFlags]
end startTransaction

section blockProcess
variable (c : CoreState)
@[simp] theorem CoreState.blockProcess_h : c.blockProcess.h = accum c.h (rounds c.h (schedExpand (schedLoad c.buf c.w))) := by
  simp [CoreState.blockProcess, CoreState.schedLoadOp, CoreState.schedExpandOp, CoreState.roundsOp, CoreState.accumOp]
@[simp] theorem CoreState.blockProcess_vars : c.blockProcess.vars = rounds c.h (schedExpand (schedLoad c.buf c.w)) := by
  simp [CoreState.blockProcess, CoreState.schedLoadOp, CoreState.schedExpandOp, CoreState.roundsOp, CoreState.accumOp]
@[simp] theorem CoreState.blockProcess_w : c.blockProcess.w = schedExpand (schedLoad c.buf c.w) := by
  simp [CoreState.blockProcess, CoreState.schedLoadOp, CoreState.schedExpandOp, CoreState.roundsOp, CoreState.accumOp]
@[simp] theorem CoreState.blockProcess_buf : c.blockProcess.buf = c.buf := by
  simp [CoreState.blockProcess, CoreState.schedLoadOp, CoreState.schedExpandOp, CoreState.roundsOp, CoreState.accumOp]
@[simp] theorem CoreState.blockProcess_n : c.blockProcess.n = c.n := by
  simp [CoreState.blockProcess, CoreState.schedLoadOp, CoreState.schedExpandOp, CoreState.roundsOp, CoreState.accumOp]
@[simp] theorem CoreState.blockProcess_len : c.blockProcess.len = c.len := by
  simp [CoreState.blockProcess, CoreState.schedLoadOp, CoreState.schedExpandOp, CoreState.roundsOp, CoreState.accumOp]
@[simp] theorem CoreState.blockProcess_dg : c.blockProcess.dg = c.dg := by
  simp [CoreState.blockProcess, CoreState.schedLoadOp, CoreState.schedExpandOp, CoreState.roundsOp, CoreState.accumOp]
@[simp] theorem CoreState.blockProcess_hex : c.blockProcess.hex = c.hex := by
  simp [CoreState.blockProcess, CoreState.schedLoadOp, CoreState.schedExpandOp, CoreState.roundsOp, CoreState.accumOp]
@[simp] theorem CoreState.blockProcess_hexv : c.blockProcess.hexv = c.hexv := by
  simp [CoreState.blockProcess, CoreState.schedLoadOp, CoreState.schedExpandOp, CoreState.roundsOp, CoreState.accumOp]
@[simp] theorem CoreState.blockProcess_fin : c.blockProcess.fin = c.fin := by
  simp [CoreState.blockProcess, CoreState.schedLoadOp, CoreState.schedExpandOp, CoreState.roundsOp, CoreState.accumOp]
end blockProcess

section digestOp
variable (c : CoreState) (le : Bool)
@[simp] theorem CoreState.digestOp_h : (c.digestOp le).h = c.h := by
  simp [CoreState.digestOp, CoreState.serOp, CoreState.hexOp, CoreState.markHexValid]
@[simp] theorem CoreState.digestOp_vars : (c.digestOp le).vars = c.vars := by
  simp [CoreState.digestOp, CoreState.serOp, CoreState.hexOp, CoreState.markHexValid]
@[simp] theorem CoreState.digestOp_w : (c.digestOp le).w = c.w := by
  simp [CoreState.digestOp, CoreState.serOp, CoreState.hexOp, CoreState.markHexValid]
@[simp] theorem CoreState.digestOp_buf : (c.digestOp le).buf = c.buf := by
  simp [CoreState.digestOp, CoreState.serOp, CoreState.hexOp, CoreState.markHexValid]
@[simp] theorem CoreState.digestOp_n : (c.digestOp le).n = c.n := by
  simp [CoreState.digestOp, CoreState.serOp, CoreState.hexOp, CoreState.markHexValid]
@[simp] theorem CoreState.digestOp_len : (c.digestOp le).len = c.len := by
  simp [CoreState.digestOp, CoreState.serOp, CoreState.hexOp, CoreState.markHexValid]
@[simp] theorem CoreState.digestOp_dg : (c.digestOp le).dg = serialize c.h le := by
  simp [CoreState.digestOp, CoreState.serOp, CoreState.hexOp, CoreState.markHexValid]
@[simp] theorem CoreState.digestOp_hex : (c.digestOp le).hex = hexEnc (serialize c.h le) := by
  simp [CoreState.digestOp, CoreState.serOp, CoreState.hexOp, CoreState.markHexValid]
@[simp] theorem CoreState.digestOp_hexv : (c.digestOp le).hexv = true := by
  simp [CoreState.digestOp, CoreState.serOp, CoreState.hexOp, CoreState.markHexValid]
@[simp] theorem CoreState.digestOp_fin : (c.digestOp le).fin = c.fin := by
  simp [CoreState.digestOp, CoreState.serOp, CoreState.hexOp, CoreState.markHexValid]
end digestOp

section machine
variable (c : CoreState) (d : Byte) (r : Response) (e : ErrorCode) (s : State)
@[simp] theorem respond_core : (respond r s).core = s.core := by cases s; rfl
@[simp] theorem respond_inputs : (respond r s).inputs = s.inputs := by cases s; rfl
@[simp] theorem respond_responses : (respond r s).responses = s.responses ++ [r] := by cases s; rfl
@[simp] theorem raiseErr_core : (raiseErr e s).core = s.core := by cases s; rfl
@[simp] theorem raiseErr_inputs : (raiseErr e s).inputs = s.inputs := by cases s; rfl
@[simp] theorem raiseErr_responses : (raiseErr e s).responses = s.responses ++ [⟨true, e.code⟩] := by cases s; rfl
@[simp] theorem complete_core : (complete c d s).core = c := by cases s; rfl
@[simp] theorem complete_inputs : (complete c d s).inputs = s.inputs := by cases s; rfl
@[simp] theorem complete_responses : (complete c d s).responses = s.responses ++ [⟨false, d⟩] := by cases s; rfl
end machine

end Sys2Proof.Machine
end

