-- ==== Sys2Proof/Laws/Padding.lean ====
section
/-! SUPPORT. PUSH and FINAL with FIN = 0, each as the updates it makes in each of its two cases, and the fields FINAL
leaves in either case (40_padding.md R83, R85). A proof rewrites with these instead of unfolding the two operations. -/

namespace Sys2Proof.Machine

variable (c : CoreState) (b : Byte) (le : Bool)

@[simp] theorem CoreState.storeNext_eq : c.storeNext b = c.setBuf (writeAt c.buf c.n b) := by
  cases c; rfl

@[simp] theorem CoreState.loadByte_eq (i : BitVec 6) : c.loadByte i b = c.setBuf (writeAt c.buf i b) := by
  cases c; rfl

@[simp] theorem CoreState.writeLength_eq : c.writeLength = c.setBuf (memWrite c.buf 56 (be64bytes c.len)) := by
  cases c; rfl

/-- A byte that does not fill the buffer. -/
theorem CoreState.pushByte_below (h : c.n ≠ 63) :
    c.pushByte b = ((c.setBuf (writeAt c.buf c.n b)).setLen (c.len + 8)).setN (c.n + 1) := by
  unfold CoreState.pushByte
  rw [if_neg h, CoreState.storeNext_eq]

/-- The byte that fills the buffer. -/
theorem CoreState.pushByte_last (h : c.n = 63) :
    c.pushByte b = ((c.setBuf (writeAt c.buf c.n b)).setLen (c.len + 8)).blockProcess.setN 0 := by
  unfold CoreState.pushByte
  rw [if_pos h, CoreState.storeNext_eq]

/-- The padding when the length field still fits into the block. -/
theorem CoreState.padZeros_fits (h : c.n.toNat < 56) :
    c.padZeros = c.setBuf (zeroFill (writeAt c.buf c.n 0x80) (c.n.toNat + 1) 55) := by
  unfold CoreState.padZeros
  rw [if_neg (Nat.not_le.mpr h), CoreState.storeNext_eq, CoreState.setBuf_buf]
  cases c; rfl

/-- The padding when it does not: the block so far is processed, and the length field's block starts with zeros. -/
theorem CoreState.padZeros_overflows (h : 56 ≤ c.n.toNat) :
    c.padZeros =
      let c1 := (c.setBuf (zeroFill (writeAt c.buf c.n 0x80) (c.n.toNat + 1) 63)).blockProcess
      c1.setBuf (zeroFill c1.buf 0 55) := by
  unfold CoreState.padZeros
  rw [if_pos h, CoreState.storeNext_eq, CoreState.setBuf_buf]
  cases c; rfl

/-- FINAL as the updates it makes, on top of the padding. -/
theorem CoreState.finalize_eq :
    c.finalize le =
      (((c.padZeros.setBuf (memWrite c.padZeros.buf 56 (be64bytes c.padZeros.len))).blockProcess.setN 0).digestOp le).setFin
        true := by
  unfold CoreState.finalize CoreState.markFinalized
  rw [CoreState.writeLength_eq]

@[simp] theorem CoreState.padZeros_len : c.padZeros.len = c.len := by
  by_cases h : c.n.toNat < 56
  · rw [c.padZeros_fits h, CoreState.setBuf_len]
  · rw [c.padZeros_overflows (Nat.not_lt.mp h), CoreState.setBuf_len, CoreState.blockProcess_len, CoreState.setBuf_len]

@[simp] theorem CoreState.finalize_n : (c.finalize le).n = 0 := by simp [CoreState.finalize_eq]
@[simp] theorem CoreState.finalize_len : (c.finalize le).len = c.len := by simp [CoreState.finalize_eq]
@[simp] theorem CoreState.finalize_hexv : (c.finalize le).hexv = true := by simp [CoreState.finalize_eq]
@[simp] theorem CoreState.finalize_fin : (c.finalize le).fin = true := by simp [CoreState.finalize_eq]
@[simp] theorem CoreState.finalize_dg : (c.finalize le).dg = serialize (c.finalize le).h le := by
  simp [CoreState.finalize_eq]
@[simp] theorem CoreState.finalize_hex : (c.finalize le).hex = hexEnc (serialize (c.finalize le).h le) := by
  simp [CoreState.finalize_eq]

end Sys2Proof.Machine
end

