-- ==== Sys2Proof/Laws/PerInstr.lean ====
section
/-! SUPPORT. What holds of every instruction as syntax, one lemma per constructor: its operands are in range, and its
word lies in its own row of the opcode map. -/

namespace Sys2Proof.Laws.WellFormed

/-- The operands of the instruction are in the ranges of 30_encoding.md R64. -/
def Statement (i : Instr) : Prop := i.wellFormed = true

theorem nop : Statement .nop := rfl
theorem init : Statement .init := rfl
theorem push (b : Byte) : Statement (.push b) := by
  have := b.isLt
  simp [Statement, Instr.wellFormed, Instr.toSource, Source.wellFormed]; omega
theorem final (le : Bool) : Statement (.final le) := by cases le <;> rfl
theorem block : Statement .block := rfl
theorem digest (le : Bool) : Statement (.digest le) := by cases le <;> rfl
theorem rdhex (i : BitVec 6) : Statement (.rdhex i) := by
  have := i.isLt
  simp [Statement, Instr.wellFormed, Instr.toSource, Source.wellFormed]; omega
theorem rdstat : Statement .rdstat := rfl
theorem ldb (i : BitVec 6) (b : Byte) : Statement (.ldb i b) := by
  have := i.isLt
  have := b.isLt
  simp [Statement, Instr.wellFormed, Instr.toSource, Source.wellFormed]; omega

end Sys2Proof.Laws.WellFormed

namespace Sys2Proof.Laws.InOwnRow

/-- The word of the instruction is covered by the row of the opcode map that has its mnemonic (30_encoding.md R65). -/
def Statement (i : Instr) : Prop := ∃ r ∈ opcodeMap, r.opcode = i.opcode ∧ encode i &&& r.mask = r.value

theorem nop : Statement .nop := ⟨⟨.nop, 0xFFFF, 0x0000⟩, by decide, rfl, rfl⟩
theorem init : Statement .init := ⟨⟨.init, 0xFFFF, 0x1000⟩, by decide, rfl, rfl⟩
theorem push (b : Byte) : Statement (.push b) := by
  refine ⟨⟨.push, 0xFF00, 0x2000⟩, by decide, rfl, ?_⟩
  apply BitVec.eq_of_getLsbD_eq
  intro k hk
  interval_cases k <;> simp [encode]
theorem final (le : Bool) : Statement (.final le) := ⟨⟨.final, 0xFFFE, 0x3000⟩, by decide, rfl, by cases le <;> rfl⟩
theorem block : Statement .block := ⟨⟨.block, 0xFFFF, 0x4000⟩, by decide, rfl, rfl⟩
theorem digest (le : Bool) : Statement (.digest le) :=
  ⟨⟨.digest, 0xFFFE, 0x5000⟩, by decide, rfl, by cases le <;> rfl⟩
theorem rdhex (i : BitVec 6) : Statement (.rdhex i) := by
  refine ⟨⟨.rdhex, 0xFFC0, 0x6000⟩, by decide, rfl, ?_⟩
  apply BitVec.eq_of_getLsbD_eq
  intro k hk
  interval_cases k <;> simp [encode]
theorem rdstat : Statement .rdstat := ⟨⟨.rdstat, 0xFFFF, 0x7000⟩, by decide, rfl, rfl⟩
theorem ldb (i : BitVec 6) (b : Byte) : Statement (.ldb i b) := by
  refine ⟨⟨.ldb, 0xC000, 0xC000⟩, by decide, rfl, ?_⟩
  apply BitVec.eq_of_getLsbD_eq
  intro k hk
  interval_cases k <;> simp [encode]

end Sys2Proof.Laws.InOwnRow
end

