-- ==== Sys2Proof/Laws/Step.lean ====
section
/-! SUPPORT. Everything a command and a step can do, said once: later proofs split these cases instead of unfolding the
step function. -/

namespace Sys2Proof.Machine

/-- A command completes with a new core state and a data byte, or is refused with NOHEX or SEQ; nothing else. -/
theorem exec_cases (i : Instr) (s : State) :
    (∃ c d, exec i s = .next (complete c d s)) ∨
      (∃ k, i = .rdhex k ∧ s.core.hexv = false ∧ exec i s = .next (raiseErr .nohex s)) ∨
      (((∃ b, i = .push b) ∨ ∃ le, i = .final le) ∧ s.core.fin = true ∧ exec i s = .next (raiseErr .seq s)) := by
  cases i with
  | push b =>
    by_cases h : s.core.fin = true
    · exact .inr (.inr ⟨.inl ⟨b, rfl⟩, h, by simp only [exec, execPush, h, if_true]⟩)
    · exact .inl ⟨s.core.pushByte b, 0x00, by simp only [exec, execPush, h]; rfl⟩
  | final le =>
    by_cases h : s.core.fin = true
    · exact .inr (.inr ⟨.inr ⟨le, rfl⟩, h, by simp only [exec, execFinal, h, if_true]⟩)
    · exact .inl ⟨s.core.finalize le, 0x00, by simp only [exec, execFinal, h]; rfl⟩
  | rdhex k =>
    by_cases h : s.core.hexv = true
    · exact .inl ⟨s.core, s.core.hexAt k, by simp only [exec, execRdhex, h, if_true]⟩
    · exact .inr (.inl ⟨k, rfl, by simpa using h, by simp only [exec, execRdhex, h]; rfl⟩)
  | nop => exact .inl ⟨_, _, rfl⟩
  | init => exact .inl ⟨_, _, rfl⟩
  | block => exact .inl ⟨_, _, rfl⟩
  | digest le => exact .inl ⟨_, _, rfl⟩
  | rdstat => exact .inl ⟨_, _, rfl⟩
  | ldb k b => exact .inl ⟨_, _, rfl⟩

/-- The four kinds of step: no move left, a word executed, a reset, an idle move. -/
theorem step_cases (s : State) :
    (s.inputs = [] ∧ step s = .next s) ∨
      (∃ c rest, s.inputs = .command c :: rest ∧ step s = acceptWord c { s with inputs := rest }) ∨
      (∃ rest, s.inputs = .reset :: rest ∧ step s = .next { s with core := CoreState.reset, inputs := rest }) ∨
      (∃ rest, s.inputs = .idle :: rest ∧ step s = .next { s with inputs := rest }) := by
  unfold step takeInput
  split
  · next h => exact .inl ⟨h, rfl⟩
  · next a rest h =>
    cases a with
    | command c => exact .inr (.inl ⟨c, rest, h, rfl⟩)
    | reset => exact .inr (.inr (.inl ⟨rest, h, rfl⟩))
    | idle => exact .inr (.inr (.inr ⟨rest, h, rfl⟩))

/-- A word that decodes to a command is executed. -/
theorem acceptWord_legal {c : BitVec 16} {i : Instr} (h : decode c = .legal i) (s : State) :
    acceptWord c s = exec i s := by simp [acceptWord, h]

/-- A reserved word is answered ILLEGAL. -/
theorem acceptWord_illegal {c : BitVec 16} {why : Reserved} (h : decode c = .illegal why) (s : State) :
    acceptWord c s = .next (raiseErr .illegal s) := by simp [acceptWord, h]

end Sys2Proof.Machine
end

