-- ==== Sys2Proof/Laws/Run.lean ====
section
/-! SUPPORT. A command as a pure function of the core's state, and a list of commands as the fold of it: what a run of
commands does, said once. -/

namespace Sys2Proof.Machine

/-- What a command does to the core, and its response (20_memory.md R50: one atomic step). -/
def commandEffect (i : Instr) (c : CoreState) : CoreState × Response :=
  match i with
  | .nop => (c, ⟨false, 0x00⟩)
  | .init => (c.startTransaction, ⟨false, 0x00⟩)
  | .push b => if c.fin then (c, ⟨true, 0x03⟩) else (c.pushByte b, ⟨false, 0x00⟩)
  | .final le => if c.fin then (c, ⟨true, 0x03⟩) else (c.finalize le, ⟨false, 0x00⟩)
  | .block => (c.blockProcess, ⟨false, 0x00⟩)
  | .digest le => (c.digestOp le, ⟨false, 0x00⟩)
  | .rdhex k => if c.hexv then (c, ⟨false, c.hexAt k⟩) else (c, ⟨true, 0x02⟩)
  | .rdstat => (c, ⟨false, c.status⟩)
  | .ldb k b => (c.loadByte k b, ⟨false, 0x00⟩)

/-- `exec` is that effect, with the response at the end of the list. -/
theorem exec_eq_commandEffect (i : Instr) (s : State) :
    exec i s = .next { core := (commandEffect i s.core).1, inputs := s.inputs,
                       responses := s.responses ++ [(commandEffect i s.core).2] } := by
  cases i with
  | push b => by_cases h : s.core.fin = true <;> simp only [exec, execPush, commandEffect, h] <;> rfl
  | final le => by_cases h : s.core.fin = true <;> simp only [exec, execFinal, commandEffect, h] <;> rfl
  | rdhex k => by_cases h : s.core.hexv = true <;> simp only [exec, execRdhex, commandEffect, h] <;> rfl
  | nop => rfl
  | init => rfl
  | block => rfl
  | digest le => rfl
  | rdstat => rfl
  | ldb k b => rfl

/-- The core after a list of commands. -/
def coreAfter : List Instr → CoreState → CoreState
  | [], c => c
  | i :: is, c => coreAfter is (commandEffect i c).1

/-- The responses to a list of commands, in order. -/
def responsesTo : List Instr → CoreState → List Response
  | [], _ => []
  | i :: is, c => (commandEffect i c).2 :: responsesTo is (commandEffect i c).1

theorem coreAfter_append (is js : List Instr) (c : CoreState) :
    coreAfter (is ++ js) c = coreAfter js (coreAfter is c) := by
  induction is generalizing c with
  | nil => rfl
  | cons i is ih => exact ih _

theorem responsesTo_append (is js : List Instr) (c : CoreState) :
    responsesTo (is ++ js) c = responsesTo is c ++ responsesTo js (coreAfter is c) := by
  induction is generalizing c with
  | nil => rfl
  | cons i is ih => exact congrArg (_ :: ·) (ih _)

/-- The buffer after a list of loads, each writing over what stands there. -/
def loadedBuffer (l : List (BitVec 6 × Byte)) (x : Block) : Block := l.foldl (fun x p => writeAt x p.1 p.2) x

/-- Loads change BUF only. -/
theorem coreAfter_loadCommands (l : List (BitVec 6 × Byte)) (c : CoreState) :
    coreAfter (loadCommands l) c = c.setBuf (loadedBuffer l c.buf) := by
  induction l generalizing c with
  | nil => cases c; rfl
  | cons p l ih =>
    have step : coreAfter (loadCommands (p :: l)) c = coreAfter (loadCommands l) (c.setBuf (writeAt c.buf p.1 p.2)) := by
      simp only [loadCommands, List.map_cons, coreAfter, commandEffect, CoreState.loadByte_eq]
    rw [step, ih, CoreState.setBuf_buf]
    cases c
    rfl

/-- Every load is answered `{0, 0x00}`. -/
theorem responsesTo_loadCommands (l : List (BitVec 6 × Byte)) (c : CoreState) :
    responsesTo (loadCommands l) c = List.replicate l.length ⟨false, 0x00⟩ := by
  induction l generalizing c with
  | nil => rfl
  | cons p l ih => exact congrArg (_ :: ·) (ih _)

/-- A byte of the buffer after the loads: the last one loaded to its index, or the old one where there is none. -/
theorem readAt_loadedBuffer (l : List (BitVec 6 × Byte)) (x : Block) (i : BitVec 6) :
    readAt (loadedBuffer l x) i = (l.reverse.lookup i).getD (readAt x i) := by
  induction l generalizing x with
  | nil => rfl
  | cons p l ih =>
    obtain ⟨k, v⟩ := p
    rw [show loadedBuffer ((k, v) :: l) x = loadedBuffer l (writeAt x k v) from rfl, ih, List.reverse_cons,
      List.lookup_append]
    by_cases h : i = k
    · subst h
      cases l.reverse.lookup i <;> simp [List.lookup]
    · have hb : (i == k) = false := by simpa using h
      rw [readAt_writeAt_ne x v (Ne.symm h)]
      cases l.reverse.lookup i <;> simp [List.lookup, hb]

/-- A run of commands, given that the decoder undoes the encoder, gives the core after them and their responses. -/
theorem runCommands_eq (decode_encode : ∀ i, decode (encode i) = .legal i) (is : List Instr) (s : State) :
    runCommands is s = .next { core := coreAfter is s.core, inputs := [],
                               responses := s.responses ++ responsesTo is s.core } := by
  have key : ∀ (is : List Instr) (s : State), s.inputs = is.map (fun i => .command (encode i)) →
      Host.Core.run Sys2Proof.core is.length s =
        .next { core := coreAfter is s.core, inputs := [], responses := s.responses ++ responsesTo is s.core } := by
    intro is
    induction is with
    | nil =>
      intro s h
      cases s
      simp only [List.map_nil] at h
      simp [Host.Core.run, coreAfter, responsesTo, h]
    | cons i is ih =>
      intro s h
      have hs : Sys2Proof.core.step s = exec i { s with inputs := is.map fun i => .command (encode i) } := by
        change step s = _
        unfold step takeInput
        rw [h]
        simp only [List.map_cons, hostMove]
        exact acceptWord_legal (decode_encode i) _
      rw [exec_eq_commandEffect] at hs
      simp only [List.length_cons, Host.Core.run, hs]
      rw [ih _ rfl]
      simp [coreAfter, responsesTo]
  exact key is (s.withCommands is) rfl

end Sys2Proof.Machine
end

