-- ==== Sys2Proof/Tests/Slice0.lean ====
section
/-! SUPPORT. Tests and witnesses. Every expected value is copied from spec/, from the place each comment names
(95_test_vectors.md unless another file is named); none is the model's own answer. A witness shows a concrete state and
operands that meet the hypotheses of the statement of the same name. -/

namespace Sys2Proof.Tests
open Sys2Proof Sys2Proof.Machine

-- Many `decide +kernel` at once would each hold a thread while it waits for the kernel.
set_option Elab.async false

/-! ## Helpers -/

/-- The state whose core is the reset core changed by `f`, with `inputs` still to come. -/
def mk (f : CoreState → CoreState) (inputs : List HostAction := []) : State :=
  { core := f CoreState.reset, inputs := inputs, responses := [] }

/-- A test of the next state; false where the machine stops. -/
def next (o : Host.Outcome State Fault Refusal) (p : State → Bool) : Bool :=
  match o with
  | .next t => p t
  | .fault _ => false
  | .refused _ => false

/-- The last response, as the 9-bit number of the test vectors; 511 where there is none. -/
def lastResponse (t : State) : BitVec 9 := (t.responses.getLast?.map Response.bits).getD 0x1FF

/-- The ASCII codes of a text. -/
def codes (s : String) : List Byte := s.toList.map fun c => BitVec.ofNat 8 c.toNat

/-- A block: the first bytes, zeros, and the last byte. -/
def blockOf (first : List Byte) (last : Byte) : Block :=
  Vector.ofFn fun j => if j.val = 63 then last else first.getD j.val 0

/-- A core of a finalized message, with a string of 64 characters '0'. -/
def finalized (c : CoreState) : CoreState :=
  (((c.setHex (Vector.replicate 64 0x30)).setHexv true).setFin true).setN 0

/-- A hash state that is not H0. -/
def zeroHash : HashState := Vector.replicate 8 0

/-! ## WellFormed refuses each ill-formed operand (30_encoding.md R64, R70) -/

theorem test_push_too_large : (Source.push 256).wellFormed = false ∧ (Source.push 256).toInstr = none := by decide
theorem test_final_too_large : (Source.final 2).wellFormed = false ∧ (Source.final 2).toInstr = none := by decide
theorem test_digest_too_large : (Source.digest 2).wellFormed = false ∧ (Source.digest 2).toInstr = none := by decide
theorem test_rdhex_too_large : (Source.rdhex 64).wellFormed = false ∧ (Source.rdhex 64).toInstr = none := by decide
theorem test_ldb_index_too_large : (Source.ldb 64 0).wellFormed = false ∧ (Source.ldb 64 0).toInstr = none := by decide
theorem test_ldb_byte_too_large : (Source.ldb 0 256).wellFormed = false ∧ (Source.ldb 0 256).toInstr = none := by decide
theorem test_largest_operands : (Source.push 255).wellFormed = true ∧ (Source.final 1).wellFormed = true ∧
    (Source.digest 1).wellFormed = true ∧ (Source.rdhex 63).wellFormed = true ∧ (Source.ldb 63 255).wellFormed = true := by
  decide

/-! ## Decoding: words written out bit by bit from the formats of 30_encoding.md R63 and R65 -/

theorem test_decode_nop : decode 0b0000_000000000000 = .legal .nop := by decide
theorem test_decode_init : decode 0b0001_000000000000 = .legal .init := by decide
theorem test_decode_push : decode 0b0010_0000_10100101 = .legal (.push 0xA5) := by decide
theorem test_decode_final : decode 0b0011_00000000000_1 = .legal (.final true) := by decide
theorem test_decode_block : decode 0b0100_000000000000 = .legal .block := by decide
theorem test_decode_digest : decode 0b0101_00000000000_1 = .legal (.digest true) := by decide
theorem test_decode_rdhex : decode 0b0110_000000_100101 = .legal (.rdhex 37) := by decide
theorem test_decode_rdstat : decode 0b0111_000000000000 = .legal .rdstat := by decide
theorem test_decode_ldb : decode 0b11_000011_10000000 = .legal (.ldb 3 0x80) := by decide

/-- TV1: the illegal words of the list. -/
theorem test_decode_illegal :
    ([0x0001, 0x1800, 0x2100, 0x3002, 0x4001, 0x5003, 0x6040, 0x7FFF, 0x8000, 0xBFFF] : List (BitVec 16)).all
      (fun c => match decode c with | .legal _ => false | .illegal _ => true) = true := by decide

/-- TV1: the legal words of the list not written out above. -/
theorem test_decode_legal :
    decode 0x2000 = .legal (.push 0) ∧ decode 0x20FF = .legal (.push 0xFF) ∧ decode 0x3000 = .legal (.final false) ∧
    decode 0x5000 = .legal (.digest false) ∧ decode 0x6000 = .legal (.rdhex 0) ∧ decode 0x603F = .legal (.rdhex 63) ∧
    decode 0xC000 = .legal (.ldb 0 0) ∧ decode 0xFF18 = .legal (.ldb 63 0x18) ∧
    decode 0xFFFF = .legal (.ldb 63 0xFF) := by decide

/-- The host's numbering of words (one 16-bit word a command). -/
theorem test_decode_table_word : decodeTableWord 16 0x603F = some (.rdhex 63) ∧ decodeTableWord 16 0x8000 = none := by
  decide

/-! ## The assembler (30_encoding.md R70, R71) -/

theorem test_asm_push_char : assembleLine "PUSH 'a'  ; a comment".toList = some [0x2061] := by decide +kernel
theorem test_asm_final_default : assembleLine "FINAL".toList = some [0x3000] := by decide +kernel
theorem test_asm_ldb : assembleLine "LDB 3, 0x80".toList = some [0xC380] := by decide +kernel
theorem test_asm_rdhex_out_of_range : assembleLine "RDHEX 64".toList = none := by decide +kernel
theorem test_asm_hash_text :
    assembleLine "HASH \"abc\", 1".toList = some [0x1000, 0x2061, 0x2062, 0x2063, 0x3001] := by decide +kernel
theorem test_asm_hash_bytes :
    assembleLine "HASH 0x61, 'b' ; 1".toList = some [0x1000, 0x2061, 0x2062, 0x3001] := by decide +kernel

/-! ## Constants, from their definitions as roots of primes (42_compression.md R101, 43_accumulate.md R115) -/

/-- The first 64 primes. -/
def primes : List Nat := (List.range 312).filter fun n => 2 ≤ n ∧ ∀ d ∈ List.range n, 2 ≤ d → n % d ≠ 0

/-- H0[k] is the first 32 bits of the fraction of the square root of prime k: x = floor(sqrt(p) * 2^32). -/
theorem test_initial_hash :
    (List.range 8).all (fun k =>
      let p := primes.getD k 0
      let frac := (Config.initialHash.getD k 0).toNat
      (List.range 20).any fun q =>
        let x := q * 2 ^ 32 + frac
        x ^ 2 ≤ p * 2 ^ 64 && p * 2 ^ 64 < (x + 1) ^ 2) = true := by decide +kernel

/-- K[i] is the first 32 bits of the fraction of the cube root of prime i: x = floor(cbrt(p) * 2^32). -/
theorem test_round_constants :
    (List.range 64).all (fun i =>
      let p := primes.getD i 0
      let frac := (Config.roundConstants.getD i 0).toNat
      (List.range 7).any fun q =>
        let x := q * 2 ^ 32 + frac
        x ^ 3 ≤ p * 2 ^ 96 && p * 2 ^ 96 < (x + 1) ^ 3) = true := by decide +kernel

/-! ## The pure functions -/

/-- TV2: single bits. -/
theorem test_ssig0 : ssig0 0x00000001 = 0x02004000 ∧ ssig0 0x00000004 = 0x08010000 ∧ ssig0 0x80000000 = 0x11002000 := by
  decide
theorem test_ssig1 : ssig1 0x00000001 = 0x0000A000 ∧ ssig1 0x00000400 = 0x02800001 ∧ ssig1 0x80000000 = 0x00205000 := by
  decide
theorem test_bsig0 : bsig0 0x00000001 = 0x40080400 ∧ bsig0 0x00020000 = 0x08008010 := by decide
theorem test_bsig1 : bsig1 0x00000001 = 0x04200080 ∧ bsig1 0x00020000 = 0x01000840 := by decide
/-- TV5, round 0 by hand. -/
theorem test_ch_maj : ch 0x510E527F 0x9B05688C 0x1F83D9AB = 0x1F85C98C ∧
    maj 0x6A09E667 0xBB67AE85 0x3C6EF372 = 0x3A6FE667 := by decide
/-- TV5, rounds 0 and 1. -/
theorem test_round :
    oneRound (Vars.ofHash Config.initialHash) 0x428A2F98 0x61626380 =
      ⟨0x5D6AEBCD, 0x6A09E667, 0xBB67AE85, 0x3C6EF372, 0xFA2A4622, 0x510E527F, 0x9B05688C, 0x1F83D9AB⟩ := by
  decide +kernel
/-- TV4: words of the schedule of the block of "abc". -/
theorem test_sched :
    let w := sched (blockOf [0x61, 0x62, 0x63, 0x80] 0x18)
    w[0] = 0x61626380 ∧ w[15] = 0x00000018 ∧ w[17] = 0x000F0000 ∧ w[18] = 0x7DA86405 ∧ w[31] = 0xD3B7973B ∧
      w[32] = 0x93F5997F ∧ w[63] = 0x12B1EDEB := by decide +kernel
/-- TV3: the lengths, and the ends for n = 55 and n = 56. -/
theorem test_pad :
    (pad (List.replicate 55 0x61)).drop 55 = [0x80, 0, 0, 0, 0, 0, 0, 0x01, 0xB8] ∧
    (pad (List.replicate 56 0x61)).length = 128 ∧
    (pad (List.replicate 56 0x61)).drop 120 = [0, 0, 0, 0, 0, 0, 0x01, 0xC0] ∧
    (pad []).length = 64 ∧ (pad (List.replicate 64 0x61)).length = 128 := by decide +kernel
/-- TV14. -/
theorem test_hex_digits :
    (hexEnc (Vector.ofFn fun j => ([0x09, 0x0A, 0x9A, 0xA9, 0xF0] : List Byte).getD j.val 0)).toList.take 10 =
      [0x30, 0x39, 0x30, 0x61, 0x39, 0x61, 0x61, 0x39, 0x66, 0x30] := by decide +kernel
/-- TV11: the two forms for "abc". -/
theorem test_hash_abc_swapped :
    (hashOf [0x61, 0x62, 0x63] true).toList =
      codes "bf1678baeacf018fde4041412322ae5da36103b09c7a179661ff10b4ad1500f2" := by decide +kernel

/-! ## One step of each command -/

/-- 45_system.md R141. -/
theorem test_nop : next (exec .nop (mk finalized)) (fun t => lastResponse t == 0x000 && t.core == finalized CoreState.reset) =
    true := by decide +kernel
/-- 43_accumulate.md R116. -/
theorem test_init :
    next (exec .init (mk fun c => ((finalized c).setH zeroHash).setLen 8)) (fun t =>
      lastResponse t == 0x000 && t.core.h == Config.initialHash && t.core.len == 0 && !t.core.fin && !t.core.hexv &&
      t.core.hex == Vector.replicate 64 0x30) = true := by decide +kernel
/-- TV21, first row. -/
theorem test_push_first :
    next (exec (.push 0x61) (mk id)) (fun t =>
      lastResponse t == 0x000 && t.core.buf[0] == 0x61 && t.core.n == 1 && t.core.len == 8 &&
      t.core.h == Config.initialHash) = true := by decide +kernel
/-- TV20, n = 64, and TV21, third row: the 64th byte, with LEN wrapping. -/
theorem test_push_last :
    next (exec (.push 0x61) (mk fun c => ((c.setBuf (Vector.replicate 64 0x61)).setN 63).setLen 0xFFFFFFFFFFFFFFF8)) (fun t =>
      t.core.n == 0 && t.core.len == 0 && t.core.h ==
        #v[0xDF5BB81C, 0xE81E0626, 0xFB45A894, 0x4FD40F31, 0xB25E6816, 0xD6D499C1, 0xAB904929, 0x00635E66]) = true := by
  decide +kernel
/-- P1: FINAL after "abc", with stale bytes behind the fill pointer. -/
theorem test_final_one_block :
    next (exec (.final false) (mk fun c =>
      ((c.setBuf (Vector.ofFn fun j => ([0x61, 0x62, 0x63] : List Byte).getD j.val 0xEE)).setN 3).setLen 0x18)) (fun t =>
      lastResponse t == 0x000 && t.core.buf == blockOf [0x61, 0x62, 0x63, 0x80] 0x18 && t.core.n == 0 &&
      t.core.len == 0x18 && t.core.fin && t.core.hexv &&
      t.core.hex.toList == codes "ba7816bf8f01cfea414140de5dae2223b00361a396177a9cb410ff61f20015ad") = true := by
  decide +kernel
/-- P4: FINAL with N = 56 processes two blocks. -/
theorem test_final_two_blocks :
    next (exec (.final false) (mk fun c => ((c.setBuf (Vector.replicate 64 0x61)).setN 56).setLen 0x1C0)) (fun t =>
      t.core.buf.toList == List.replicate 62 0 ++ [0x01, 0xC0] && t.core.n == 0 && t.core.h ==
        #v[0xB35439A4, 0xAC6F0948, 0xB6D6F9E3, 0xC6AF0F5F, 0x590CE20F, 0x1BDE7090, 0xEF797068, 0x6EC6738A]) = true := by
  decide +kernel
/-- TV7. -/
theorem test_block :
    next (exec .block (mk id)) (fun t => lastResponse t == 0x000 && t.core.h ==
      #v[0xDA5698BE, 0x17B9B469, 0x62335799, 0x779FBECA, 0x8CE5D491, 0xC0D26243, 0xBAFEF9EA, 0x1837A9D8]) = true := by
  decide +kernel
/-- TV13. -/
theorem test_digest :
    next (exec (.digest false) (mk id)) (fun t => t.core.hexv && !t.core.fin &&
      t.core.hex.toList == codes "6a09e667bb67ae853c6ef372a54ff53a510e527f9b05688c1f83d9ab5be0cd19") = true := by
  decide +kernel
/-- TV13, `le` = 1. -/
theorem test_digest_swapped :
    next (exec (.digest true) (mk id)) (fun t => t.core.hex.toList ==
      codes "67e6096a85ae67bb72f36e3c3af54fa57f520e518c68059babd9831f19cde05b") = true := by decide +kernel
/-- TV22: NOHEX after reset. -/
theorem test_rdhex_refused :
    next (exec (.rdhex 0) (mk id)) (fun t => lastResponse t == 0x102 && t.core == CoreState.reset) = true := by
  decide +kernel
/-- 44_serialize_hex.md R136: the character at the index, here the last one. -/
theorem test_rdhex :
    next (exec (.rdhex 63) (mk fun c => ((c.setHex (Vector.ofFn fun i => if i.val = 63 then 0x64 else 0x30)).setHexv true)))
      (fun t => lastResponse t == 0x064) = true := by decide +kernel
/-- TV23: `FINAL`, then RDSTAT. -/
theorem test_rdstat_final : next (exec .rdstat (mk finalized)) (fun t => lastResponse t == 0x0C0) = true := by decide +kernel
/-- TV23: `PUSH 0x61; DIGEST 1`, then RDSTAT. -/
theorem test_rdstat_n : next (exec .rdstat (mk fun c => (c.setN 1).setHexv true)) (fun t => lastResponse t == 0x081) = true := by
  decide +kernel
/-- TV24 and 41_schedule.md R96. -/
theorem test_ldb :
    next (exec (.ldb 63 0x18) (mk finalized)) (fun t => lastResponse t == 0x000 && t.core.buf == blockOf [] 0x18 &&
      t.core.n == 0 && t.core.fin) = true := by decide +kernel
/-- TV22: SEQ. -/
theorem test_push_refused :
    next (exec (.push 0x61) (mk finalized)) (fun t => lastResponse t == 0x103 && t.core == finalized CoreState.reset) = true := by
  decide +kernel
/-- TV22: a reserved word, through the whole step. -/
theorem test_illegal_word :
    next (step (mk id [.command 0x8000])) (fun t => lastResponse t == 0x101 && t.core == CoreState.reset && t.inputs == []) =
      true := by decide +kernel
/-- TV1, TV22: a presented word is decoded and executed by the very next step. -/
theorem test_with_fetch_word :
    next (step (State.reset.withFetchWord 16 0xC380)) (fun t => lastResponse t == 0x000 && t.core.buf[3] == 0x80) = true := by
  decide +kernel

/-! ## Witnesses: the hypotheses of each statement can be met -/

theorem witness_EncodeUndoesDecode : decode 0xC380 = .legal (.ldb 3 0x80) := by decide

theorem witness_OpcodeMapSelectsCommand :
    ⟨.push, 0xFF00, 0x2000⟩ ∈ opcodeMap ∧ (0x20FF : BitVec 16) &&& 0xFF00 = 0x2000 ∧
    ¬((0x2100 : BitVec 16) &&& 0xFF00 = 0x2000) := by decide

theorem witness_ReservedWordsAreRefused :
    decode 0xBFFF = .illegal .unassignedQuarter ∧ (mk finalized [.command 0xBFFF]).inputs = .command 0xBFFF :: [] := by
  decide +kernel

theorem witness_OperandsInRangeHaveACommand : (Source.ldb 63 255).toInstr = some (.ldb 63 255) := by decide

theorem witness_PseudoInstructionsExpand :
    (0 < 64 ∧ rdstrCommands[0]? = some (.rdhex 0)) ∧ (63 < 64 ∧ rdstrCommands[63]? = some (.rdhex 63)) := by decide +kernel

theorem witness_StepRunsDecodedCommand :
    (mk id [.command 0x4000, .reset]).inputs = .command 0x4000 :: [.reset] ∧ decode 0x4000 = .legal .block ∧
    decode (BitVec.ofNat 16 0x4000) = .legal .block := by decide +kernel

theorem witness_ResetGivesTheResetState :
    (mk finalized [.reset]).inputs = .reset :: [] ∧ (mk finalized).core ≠ CoreState.reset := by decide +kernel

theorem witness_IdleHostChangesNothing :
    (mk finalized).inputs = [] ∧ (mk finalized [.idle, .reset]).inputs = .idle :: [.reset] := by decide +kernel

/-- Each case of the table: a reserved word, RDHEX with and without a string, PUSH and FINAL with FIN 1 and 0. -/
theorem witness_EveryCommandIsAnsweredOnce :
    decode 0x8000 = .illegal .unassignedQuarter ∧
    decode 0x6000 = .legal (.rdhex 0) ∧ (mk id).core.hexv = false ∧ (mk finalized).core.hexv = true ∧
    decode 0x2061 = .legal (.push 0x61) ∧ decode 0x3000 = .legal (.final false) ∧ (mk id).core.fin = false ∧
    (mk finalized).core.fin = true := by decide +kernel

theorem witness_InitStartsATransaction : State.reset.core = CoreState.reset := by decide +kernel

theorem witness_PushAppendsAByte :
    (mk finalized).core.fin = true ∧
    ((mk fun c => c.setN 62).core.fin = false ∧ (mk fun c => c.setN 62).core.n.toNat < 63) ∧
    ((mk fun c => c.setN 63).core.fin = false ∧ (mk fun c => c.setN 63).core.n.toNat = 63) := by decide +kernel

theorem witness_FinalClosesTheMessage :
    (mk finalized).core.fin = true ∧
    ((mk fun c => c.setN 55).core.fin = false ∧ (mk fun c => c.setN 55).core.n.toNat < 56) ∧
    ((mk fun c => c.setN 56).core.fin = false ∧ 56 ≤ (mk fun c => c.setN 56).core.n.toNat) ∧
    ((mk fun c => c.setN 63).core.fin = false ∧ 56 ≤ (mk fun c => c.setN 63).core.n.toNat) := by decide +kernel

/-- The finalized core meets the invariants. -/
theorem finalized_inv : (finalized CoreState.reset).Inv where
  hexv_encodes _ := by decide +kernel
  hexv_digits _ := by decide +kernel
  fin_hexv _ := by decide +kernel
  fin_empty _ := by decide +kernel

theorem witness_RdhexReturnsACharacter :
    ((mk finalized).core.hexv = true ∧ (mk finalized).core.Inv) ∧ (mk id).core.hexv = false ∧
    Instr.push 0x61 ≠ .init ∧ (∀ le, Instr.push 0x61 ≠ .digest le) ∧ (∀ le, Instr.push 0x61 ≠ .final le) :=
  ⟨⟨by decide +kernel, finalized_inv⟩, by decide +kernel, by decide, by decide, by decide⟩

theorem witness_RdstatReturnsTheStatus :
    (mk finalized).core.Inv ∧ (mk finalized).core.status.getLsbD 6 = true := ⟨finalized_inv, by decide +kernel⟩

/-- Both ends of the amounts and of the bit numbers. -/
theorem witness_RotateMovesBits :
    (0 < 1 ∧ 1 < 32 ∧ 31 < 32 ∧ (rotr 0x00000001 1).getLsbD 31 = true) ∧
    (0 < 31 ∧ 31 < 32 ∧ 0 < 32 ∧ (rotr 0x80000000 31).getLsbD 0 = true) := by decide

/-- The last bit a shift fills from x, and the first it fills with 0. -/
theorem witness_SmallSigmaBits :
    (28 < 32 ∧ (ssig0 0x80000000).getLsbD 28 = true) ∧ (29 < 32 ∧ (ssig0 0x00000001).getLsbD 29 = false) ∧
    (21 < 32 ∧ (ssig1 0x80000000).getLsbD 21 = true) ∧ (22 < 32 ∧ (ssig1 0x00000001).getLsbD 22 = false) := by decide

theorem witness_RoundFunctionBits :
    (0 < 32 ∧ (bsig0 0x00000004).getLsbD 0 = true) ∧ (31 < 32 ∧ (maj 0x80000000 0x80000000 0).getLsbD 31 = true) := by
  decide

theorem witness_RoundsRunInOrder : (0 < 64 ∧ Config.roundConstants[0] = 0x428A2F98) ∧
    (63 < 64 ∧ Config.roundConstants[63] = 0xC67178F2) := by decide

theorem witness_ScheduleLoadsBigEndian : (15 < 16 ∧ 4 * 15 + 3 < 64) ∧ (16 < 64 ∧ 16 ≤ 16) ∧ (63 < 64 ∧ 16 ≤ 63) := by decide

theorem witness_ScheduleExpandsByRecurrence : (15 < 64 ∧ 15 < 16) ∧ (16 < 64 ∧ 16 ≤ 16) ∧ (63 < 64 ∧ 16 ≤ 63) := by decide

/-- First and last byte of the digest of H0, in both modes (TV13). -/
theorem witness_SerializeOrdersBytes :
    (0 < 8 ∧ 0 < 4 ∧ (serialize Config.initialHash false)[0] = 0x6A ∧ (serialize Config.initialHash true)[0] = 0x67) ∧
    (7 < 8 ∧ 3 < 4 ∧ (serialize Config.initialHash false)[31] = 0x19 ∧ (serialize Config.initialHash true)[31] = 0x5B) := by
  decide +kernel

theorem witness_SwapStaysWithinWords :
    7 < 8 ∧ 0 < 4 ∧ (serialize Config.initialHash true)[28] = 0x19 ∧ (serialize Config.initialHash false)[31] = 0x19 := by
  decide +kernel

theorem witness_HexDigitsAreLowerCaseAscii :
    ((9 : BitVec 4).toNat ≤ 9 ∧ hexDigit 9 = 0x39) ∧ (10 ≤ (10 : BitVec 4).toNat ∧ hexDigit 10 = 0x61) ∧
    (10 ≤ (15 : BitVec 4).toNat ∧ hexDigit 15 = 0x66) := by decide

theorem witness_HexPairsHighNibbleFirst :
    31 < 32 ∧ (hexEnc (Vector.replicate 32 0x9A))[62] = 0x39 ∧ (hexEnc (Vector.replicate 32 0x9A))[63] = 0x61 := by
  decide +kernel

theorem witness_TwoFormsOfOneDigest : (0 < 8 ∧ 0 < 4 ∧ 0 < 2) ∧ (7 < 8 ∧ 3 < 4 ∧ 1 < 2) := by decide

theorem witness_OutputIsHexDigits : 0 < 64 ∧ 63 < 64 := by decide

/-- For 3 bytes: the last byte of the message, the first and the last zero byte, the last length byte. -/
theorem witness_PaddingShape :
    2 < ([0x61, 0x62, 0x63] : List Byte).length ∧
    (3 < 4 ∧ 4 < (pad [0x61, 0x62, 0x63]).length - 8) ∧ (3 < 55 ∧ 55 < (pad [0x61, 0x62, 0x63]).length - 8) ∧ 7 < 8 := by
  decide +kernel

/-- A finalized core whose message then starts anew, and one that is only read. -/
theorem witness_EveryStepKeepsTheInvariants :
    (mk finalized [.command 0x1000]).core.Inv ∧
    next (step (mk finalized [.command 0x1000])) (fun t => !t.core.fin) = true ∧
    next (step (mk finalized [.command 0x603F])) (fun t => t.core.fin) = true :=
  ⟨finalized_inv, by decide +kernel, by decide +kernel⟩

/-- H changes by reset, INIT, BLOCK, the 64th PUSH, and FINAL of one and of two blocks. -/
theorem witness_HashStateWriters :
    let changes := fun s : State => next (step s) fun t => t.core.h != s.core.h
    changes (mk (fun c => c.setH zeroHash) [.reset]) = true ∧ changes (mk (fun c => c.setH zeroHash) [.command 0x1000]) = true ∧
    changes (mk id [.command 0x4000]) = true ∧ changes (mk (fun c => c.setN 63) [.command 0x2000]) = true ∧
    changes (mk (fun c => c.setN 55) [.command 0x3000]) = true ∧
    changes (mk (fun c => c.setN 56) [.command 0x3001]) = true := by decide +kernel

theorem witness_FlagWriters :
    (mk finalized [.idle]).inputs = .idle :: [] ∧ (mk finalized [.reset]).inputs = .reset :: [] ∧
    (mk finalized [.command 0x3000]).inputs = .command 0x3000 :: [] ∧ decode 0x3000 = .legal (.final false) ∧
    (mk finalized).core.fin = true ∧ (mk id).core.fin = false := by decide +kernel

/-- Two machines that differ in W and in DG. -/
theorem witness_HiddenRegistersAreNeverRead :
    let s₁ := mk id [.command 0x4000]
    let s₂ := mk (fun c => (c.setW (Vector.replicate 64 1)).setDg (Vector.replicate 32 1)) [.command 0x4000]
    s₁.core.SameButHidden s₂.core ∧ s₁.core ≠ s₂.core ∧ s₁.inputs = s₂.inputs ∧ s₁.responses = s₂.responses ∧
      next (step s₁) (fun _ => true) = true :=
  ⟨by constructor <;> decide +kernel, by decide +kernel, by decide +kernel, by decide +kernel, by decide +kernel⟩

theorem witness_MessageSoFar :
    (∀ i ∈ [Instr.push 0x61, .rdstat, .digest true, .push 0x62], i.isReading = true ∨ ∃ b, i = .push b) ∧
    pushedBytes [Instr.push 0x61, .rdstat, .digest true, .push 0x62] = [0x61, 0x62] := by
  refine ⟨?_, by decide⟩
  simp [Instr.isReading]

/-- The loads of a block, from the last index down to the first. -/
def loadsDownward (b : Block) : List (BitVec 6 × Byte) :=
  (List.range 64).reverse.map fun j => (BitVec.ofNat 6 j, b.toList.getD j 0)

/-- TV3, n = 0: the one block of the padded empty message, loaded downward. -/
theorem witness_RawModeComputesTheHash : loadsBlocks [loadsDownward (blockOf [0x80] 0)] (blocks (pad [])) := by
  have h : blocks (pad []) = [blockOf [0x80] 0] := by decide +kernel
  rw [h]
  refine ⟨?_, trivial⟩
  unfold loadsBlock
  decide +kernel

/-- RAWBLK of 30_encoding.md R71 is one of these ways to load a block. -/
theorem rawblkCommands_eq_rawCommands (b : Block) :
    rawblkCommands b = rawCommands ((List.finRange 64).map fun i => (BitVec.ofNat 6 i.val, b[i.val])) := by
  simp [rawblkCommands, ldblkCommands, rawCommands, loadCommands, Function.comp_def]

theorem witness_TransactionsAreIndependent :
    (mk finalized).responses = (mk fun c => c.setH zeroHash).responses ∧
    (mk finalized).core ≠ (mk fun c => c.setH zeroHash).core ∧
    (∀ i ∈ [Instr.push 0x61, .final true, .rdhex 0], i.inMessageMode = true) ∧
    (∀ i ∈ [Instr.digest true, .rdhex 0], i.isReading = true) ∧
    (∀ l ∈ [loadsDownward (blockOf [0x80] 0)], namesEveryIndex l) := by
  refine ⟨by decide +kernel, by decide +kernel, by decide +kernel, by decide +kernel, ?_⟩
  intro l hl i
  rw [List.mem_singleton.mp hl]
  have h : ∀ i : BitVec 6, (i, (blockOf [0x80] 0)[i.toNat]'i.isLt) ∈ loadsDownward (blockOf [0x80] 0) := by decide +kernel
  exact ⟨_, h i⟩

end Sys2Proof.Tests
end

section
/-! The rotation of 00_scope.md R12 on bits: it is the library's `rotateRight`, and it moves bit (i + n) mod 32 to
bit i. -/

namespace Sys2Proof.Machine

theorem rotr_eq_rotateRight (x : Word) {n : Nat} (hn : n < 32) : rotr x n = x.rotateRight n :=
  (BitVec.rotateRight_eq_rotateRightAux_of_lt hn).symm

/-- A bit of the rotation comes from the right shift while i + n stays below 32, and from the left shift once i + n wraps
around. -/
theorem getLsbD_rotr (x : Word) {n i : Nat} (hn : n < 32) (hi : i < 32) :
    (rotr x n).getLsbD i = x.getLsbD ((i + n) % 32) := by
  rw [rotr_eq_rotateRight x hn, BitVec.getLsbD_rotateRight_of_lt hn]
  by_cases hlow : i < 32 - n
  · have hsource : (i + n) % 32 = n + i := by omega
    simp [hlow, hsource]
  · have hsource : (i + n) % 32 = i - (32 - n) := by omega
    simp [hlow, hi, hsource]

/-- Settles O24, from the bits of the rotation; the amount 0, which R12 leaves out, would satisfy it too. -/
theorem rotateMovesBits : Obligations.RotateMovesBits := by
  unfold Obligations.RotateMovesBits
  intro x n i _ hn hi
  exact getLsbD_rotr x hn hi

end Sys2Proof.Machine
end

section
/-! One move of the host as a pure function of the core's state: the step as a whole, said once as an equation. An empty
list of moves is a host that does nothing (log entry 1), so it is the idle move. -/

namespace Sys2Proof.Machine

/-- What a move does to the core, and the responses it gets (60_exceptions.md R153, R163; 70_reset_and_hazards.md
R170). -/
def moveEffect (a : HostAction) (c : CoreState) : CoreState × List Response :=
  match a with
  | .command w =>
    match decode w with
    | .legal i => ((commandEffect i c).1, [(commandEffect i c).2])
    | .illegal _ => (c, [⟨true, 0x01⟩])
  | .reset => (CoreState.reset, [])
  | .idle => (c, [])

@[simp] theorem moveEffect_reset (c : CoreState) : moveEffect .reset c = (CoreState.reset, []) := rfl

@[simp] theorem moveEffect_idle (c : CoreState) : moveEffect .idle c = (c, []) := rfl

theorem moveEffect_legal {w : BitVec 16} {i : Instr} (hw : decode w = .legal i) (c : CoreState) :
    moveEffect (.command w) c = ((commandEffect i c).1, [(commandEffect i c).2]) := by
  simp only [moveEffect, hw]

theorem moveEffect_illegal {w : BitVec 16} {why : Reserved} (hw : decode w = .illegal why) (c : CoreState) :
    moveEffect (.command w) c = (c, [⟨true, 0x01⟩]) := by
  simp only [moveEffect, hw]

/-- What the core does with a word, with the responses at the end of the list. -/
theorem acceptWord_eq_moveEffect (w : BitVec 16) (s : State) :
    acceptWord w s = .next { core := (moveEffect (.command w) s.core).1, inputs := s.inputs,
                             responses := s.responses ++ (moveEffect (.command w) s.core).2 } := by
  cases hw : decode w with
  | legal i => rw [acceptWord_legal hw, exec_eq_commandEffect, moveEffect_legal hw]
  | illegal why => rw [acceptWord_illegal hw, moveEffect_illegal hw]; rfl

/-- Every step is the effect of its move on the core. -/
theorem step_eq_moveEffect (s : State) :
    step s = .next { core := (moveEffect (s.inputs.headD .idle) s.core).1, inputs := s.inputs.tail,
                     responses := s.responses ++ (moveEffect (s.inputs.headD .idle) s.core).2 } := by
  obtain ⟨hin, hstep⟩ | ⟨w, rest, hin, hstep⟩ | ⟨rest, hin, hstep⟩ | ⟨rest, hin, hstep⟩ := step_cases s
  · obtain ⟨core, inputs, responses⟩ := s
    obtain rfl : inputs = [] := hin
    simpa using hstep
  · rw [hstep, hin, acceptWord_eq_moveEffect]
    rfl
  · simp [hstep, hin]
  · simp [hstep, hin]

end Sys2Proof.Machine
end

section
/-! What a PUSH that completes leaves (40_padding.md R83): the digest, the string and the flags, in both of its cases. -/

namespace Sys2Proof.Machine

variable (c : CoreState) (b : Byte)

@[simp] theorem CoreState.pushByte_dg : (c.pushByte b).dg = c.dg := by
  by_cases h : c.n = 63
  · simp [c.pushByte_last b h]
  · simp [c.pushByte_below b h]

@[simp] theorem CoreState.pushByte_hex : (c.pushByte b).hex = c.hex := by
  by_cases h : c.n = 63
  · simp [c.pushByte_last b h]
  · simp [c.pushByte_below b h]

@[simp] theorem CoreState.pushByte_hexv : (c.pushByte b).hexv = c.hexv := by
  by_cases h : c.n = 63
  · simp [c.pushByte_last b h]
  · simp [c.pushByte_below b h]

@[simp] theorem CoreState.pushByte_fin : (c.pushByte b).fin = c.fin := by
  by_cases h : c.n = 63
  · simp [c.pushByte_last b h]
  · simp [c.pushByte_below b h]

end Sys2Proof.Machine
end

section
/-! The invariants of 10_state.md R36. That every character of a valid string is a hex digit follows from the string
being the output of the hex encoder, so only the other three parts have to be carried through a step. -/

namespace Sys2Proof.Machine

theorem isHexCode_hexDigit (n : BitVec 4) : isHexCode (hexDigit n) = true := by
  revert n
  decide

theorem isHexCode_getElem_hexEnc (d : Digest) (i : Nat) (h : i < 64) : isHexCode (hexEnc d)[i] = true := by
  rw [getElem_hexEnc]
  exact isHexCode_hexDigit _

namespace CoreState

variable {c : CoreState}

theorem inv_of_hex_eq_hexEnc (hstring : c.hexv = true → c.hex = hexEnc c.dg) (hvalid : c.fin = true → c.hexv = true)
    (hempty : c.fin = true → c.n = 0) : c.Inv where
  hexv_encodes := hstring
  hexv_digits hv i hi := by
    simp only [hstring hv]
    exact isHexCode_getElem_hexEnc c.dg i hi
  fin_hexv := hvalid
  fin_empty := hempty

theorem reset_inv : CoreState.reset.Inv := by
  have hhexv : CoreState.reset.hexv = false := rfl
  have hfin : CoreState.reset.fin = false := rfl
  apply inv_of_hex_eq_hexEnc <;> simp [hhexv, hfin]

theorem startTransaction_inv : c.startTransaction.Inv := by
  apply inv_of_hex_eq_hexEnc <;> simp

theorem finalize_inv (le : Bool) : (c.finalize le).Inv := by
  apply inv_of_hex_eq_hexEnc
  · intro _
    rw [finalize_hex, finalize_dg]
  · simp
  · simp

theorem Inv.digestOp (hc : c.Inv) (le : Bool) : (c.digestOp le).Inv := by
  apply inv_of_hex_eq_hexEnc
  · simp
  · simp
  · simpa using hc.fin_empty

theorem Inv.pushByte (hc : c.Inv) (hfin : c.fin = false) (b : Byte) : (c.pushByte b).Inv := by
  apply inv_of_hex_eq_hexEnc
  · simpa using hc.hexv_encodes
  · simp [hfin]
  · simp [hfin]

theorem Inv.blockProcess (hc : c.Inv) : c.blockProcess.Inv := by
  apply inv_of_hex_eq_hexEnc
  · simpa using hc.hexv_encodes
  · simpa using hc.fin_hexv
  · simpa using hc.fin_empty

theorem Inv.setBuf (hc : c.Inv) (x : Block) : (c.setBuf x).Inv := by
  apply inv_of_hex_eq_hexEnc
  · simpa using hc.hexv_encodes
  · simpa using hc.fin_hexv
  · simpa using hc.fin_empty

end CoreState

theorem commandEffect_inv {c : CoreState} (hc : c.Inv) (i : Instr) : (commandEffect i c).1.Inv := by
  cases i with
  | nop => exact hc
  | init => exact CoreState.startTransaction_inv
  | push b =>
    cases hfin : c.fin with
    | true => simpa [commandEffect, hfin] using hc
    | false => simpa [commandEffect, hfin] using hc.pushByte hfin b
  | final le =>
    cases hfin : c.fin with
    | true => simpa [commandEffect, hfin] using hc
    | false => simpa [commandEffect, hfin] using CoreState.finalize_inv le
  | block => exact hc.blockProcess
  | digest le => exact hc.digestOp le
  | rdhex k => cases hhexv : c.hexv <;> simpa [commandEffect, hhexv] using hc
  | rdstat => exact hc
  | ldb k b => simpa [commandEffect] using hc.setBuf _

theorem moveEffect_inv {c : CoreState} (hc : c.Inv) (a : HostAction) : (moveEffect a c).1.Inv := by
  cases a with
  | reset => exact CoreState.reset_inv
  | idle => exact hc
  | command w =>
    cases hw : decode w with
    | legal i => rw [moveEffect_legal hw]; exact commandEffect_inv hc i
    | illegal why => rw [moveEffect_illegal hw]; exact hc

/-- Settles O43: a step is the effect of one move, and each move keeps the invariants. -/
theorem everyStepKeepsTheInvariants : Obligations.EveryStepKeepsTheInvariants := by
  unfold Obligations.EveryStepKeepsTheInvariants
  intro s t hs hstep
  rw [step_eq_moveEffect] at hstep
  cases hstep
  exact moveEffect_inv hs _

/-- Settles O42: both flags are clear after reset. -/
theorem resetMeetsTheInvariants : Obligations.ResetMeetsTheInvariants :=
  CoreState.reset_inv

end Sys2Proof.Machine
end

section
/-! The values of the reset state (10_state.md R35, 43_accumulate.md R115), and the writers of the two flags (R24). -/

namespace Sys2Proof.Machine

/-- Settles O11: the one state is `CoreState.reset`. -/
theorem resetGivesTheResetState : Obligations.ResetGivesTheResetState := by
  unfold Obligations.ResetGivesTheResetState
  refine ⟨CoreState.reset, rfl, ?_, rfl, rfl, ?_, ?_, rfl, rfl, ?_, ?_, rfl, rfl⟩
  · intro s rest hin
    simp [step_eq_moveEffect, hin]
  all_goals
    intro i hi
    exact Vector.getElem_replicate hi

/-- Settles O45, move by move and command by command. -/
theorem flagWriters : Obligations.FlagWriters := by
  unfold Obligations.FlagWriters
  intro s a rest hin
  refine ⟨_, step_eq_moveEffect s, ?_⟩
  rw [hin]
  simp only [List.headD_cons]
  cases a with
  | idle => exact ⟨rfl, rfl⟩
  | reset => exact ⟨rfl, rfl⟩
  | command w =>
    cases hw : decode w with
    | illegal why => simp [moveEffect_illegal hw, hw]
    | legal i =>
      rw [moveEffect_legal hw]
      cases i with
      | nop => simp [hw, commandEffect]
      | init => simp [hw, commandEffect]
      | push b => cases hfin : s.core.fin <;> simp [hw, commandEffect, hfin]
      | final le => cases hfin : s.core.fin <;> simp [hw, commandEffect, hfin]
      | block => simp [hw, commandEffect]
      | digest le => simp [hw, commandEffect]
      | rdhex k => cases hhexv : s.core.hexv <;> simp [hw, commandEffect, hhexv]
      | rdstat => simp [hw, commandEffect]
      | ldb k b => simp [hw, commandEffect]

end Sys2Proof.Machine
end

section
/-! The schedule of a block does not depend on the words it is written over (41_schedule.md R94): each word is written
from the block or from words below it, so two schedules that are filled alike agree on the words filled so far. -/

namespace Sys2Proof.Machine

/-- The two schedules have the same words at the indices below `m`. -/
def AgreeBelow (m : Nat) (w w' : Schedule) : Prop := ∀ (i : Nat) (_ : i < 64), i < m → w[i] = w'[i]

theorem AgreeBelow.eq {w w' : Schedule} (h : AgreeBelow 64 w w') : w = w' :=
  Vector.ext fun i hi => h i hi hi

/-- Writing one more word, the same into both. -/
theorem AgreeBelow.set {m : Nat} {w w' : Schedule} (h : AgreeBelow m w w') (hm : m < 64) {x x' : Word} (hx : x = x') :
    AgreeBelow (m + 1) (w.set m x) (w'.set m x') := by
  intro i hi him
  rw [Vector.getElem_set, Vector.getElem_set]
  split
  · exact hx
  · exact h i hi (by omega)

/-- A loop whose pass `k` extends the agreement from `start + k` by one word. -/
theorem AgreeBelow.foldl_finRange {m start : Nat} {f : Schedule → Fin m → Schedule}
    (hf : ∀ (k : Fin m) (w w' : Schedule), AgreeBelow (start + k.val) w w' →
      AgreeBelow (start + k.val + 1) (f w k) (f w' k))
    {w w' : Schedule} (h : AgreeBelow start w w') :
    AgreeBelow (start + m) ((List.finRange m).foldl f w) ((List.finRange m).foldl f w') := by
  obtain ⟨v, hv0, hvstep, hvend⟩ := foldl_trace f w (List.finRange m)
  obtain ⟨v', hv0', hvstep', hvend'⟩ := foldl_trace f w' (List.finRange m)
  have along : ∀ k, k ≤ m → AgreeBelow (start + k) (v k) (v' k) := by
    intro k
    induction k with
    | zero => intro _; rw [hv0, hv0']; exact h
    | succ k ih =>
      intro hk
      have hlen : k < (List.finRange m).length := by simpa using hk
      rw [hvstep k hlen, hvstep' k hlen, List.getElem_finRange]
      exact hf ⟨k, hk⟩ _ _ (ih (by omega))
  rw [hvend, hvend', List.length_finRange]
  exact along m le_rfl

theorem agreeBelow_schedLoad (b : Block) (w w' : Schedule) : AgreeBelow 16 (schedLoad b w) (schedLoad b w') := by
  rw [schedLoad_eq_foldl, schedLoad_eq_foldl]
  have hstart : AgreeBelow 0 w w' := fun i _ hi => absurd hi (Nat.not_lt_zero i)
  change AgreeBelow (0 + 16) _ _
  refine AgreeBelow.foldl_finRange ?_ hstart
  intro k w w' h
  rw [Nat.zero_add] at h ⊢
  exact h.set (by omega) rfl

/-- `schedStep` reads words below the one it writes only. -/
theorem AgreeBelow.schedStep {w w' : Schedule} {k : Fin 48} (h : AgreeBelow (16 + k.val) w w') :
    AgreeBelow (16 + k.val + 1) (schedStep w k) (schedStep w' k) := by
  refine h.set (by omega) ?_
  rw [h (16 + k.val - 15) (by omega) (by omega), h (16 + k.val - 2) (by omega) (by omega),
    h (16 + k.val - 7) (by omega) (by omega), h (16 + k.val - 16) (by omega) (by omega)]

theorem AgreeBelow.schedExpand {w w' : Schedule} (h : AgreeBelow 16 w w') :
    AgreeBelow 64 (schedExpand w) (schedExpand w') := by
  rw [schedExpand_eq_foldl, schedExpand_eq_foldl]
  exact AgreeBelow.foldl_finRange (fun _ _ _ hk => hk.schedStep) h

@[simp] theorem schedExpand_schedLoad (b : Block) (w : Schedule) : schedExpand (schedLoad b w) = sched b :=
  (agreeBelow_schedLoad b w _).schedExpand.eq

end Sys2Proof.Machine
end

section
/-! Two core states that differ at most in W, a..h and DG (10_state.md R33) still do so after the same update, and hence
after the same command. -/

namespace Sys2Proof.Machine

namespace CoreState.SameButHidden

variable {c d : CoreState}

theorem setBuf (hcd : c.SameButHidden d) {x y : Block} (hxy : x = y) : (c.setBuf x).SameButHidden (d.setBuf y) := by
  constructor <;> simp [hxy, hcd.h, hcd.n, hcd.len, hcd.hex, hcd.hexv, hcd.fin]

theorem loadByte (hcd : c.SameButHidden d) (i : BitVec 6) (b : Byte) :
    (c.loadByte i b).SameButHidden (d.loadByte i b) := by
  rw [loadByte_eq, loadByte_eq]
  exact hcd.setBuf (congrArg (writeAt · i b) hcd.buf)

theorem setN (hcd : c.SameButHidden d) {x y : BitVec 6} (hxy : x = y) : (c.setN x).SameButHidden (d.setN y) := by
  constructor <;> simp [hxy, hcd.h, hcd.buf, hcd.len, hcd.hex, hcd.hexv, hcd.fin]

theorem setLen (hcd : c.SameButHidden d) {x y : BitVec 64} (hxy : x = y) : (c.setLen x).SameButHidden (d.setLen y) := by
  constructor <;> simp [hxy, hcd.h, hcd.buf, hcd.n, hcd.hex, hcd.hexv, hcd.fin]

theorem setFin (hcd : c.SameButHidden d) (x : Bool) : (c.setFin x).SameButHidden (d.setFin x) := by
  constructor <;> simp [hcd.h, hcd.buf, hcd.n, hcd.len, hcd.hex, hcd.hexv]

theorem startTransaction (hcd : c.SameButHidden d) : c.startTransaction.SameButHidden d.startTransaction := by
  constructor <;> simp [hcd.buf, hcd.hex]

/-- The new H is made of the old H and of BUF, since W and a..h are written before they are read. -/
theorem blockProcess (hcd : c.SameButHidden d) : c.blockProcess.SameButHidden d.blockProcess := by
  constructor <;> simp [hcd.h, hcd.buf, hcd.n, hcd.len, hcd.hex, hcd.hexv, hcd.fin]

/-- The new HEX is made of H, since DG is written before it is read. -/
theorem digestOp (hcd : c.SameButHidden d) (le : Bool) : (c.digestOp le).SameButHidden (d.digestOp le) := by
  constructor <;> simp [hcd.h, hcd.buf, hcd.n, hcd.len, hcd.fin]

theorem pushByte (hcd : c.SameButHidden d) (b : Byte) : (c.pushByte b).SameButHidden (d.pushByte b) := by
  have hbuf : writeAt c.buf c.n b = writeAt d.buf d.n b := by rw [hcd.buf, hcd.n]
  have hstored := (hcd.setBuf hbuf).setLen (congrArg (· + 8) hcd.len)
  by_cases hn : d.n = 63
  · rw [c.pushByte_last b (hcd.n.trans hn), d.pushByte_last b hn]
    exact hstored.blockProcess.setN rfl
  · rw [c.pushByte_below b (hcd.n ▸ hn), d.pushByte_below b hn]
    exact hstored.setN (congrArg (· + 1) hcd.n)

theorem padZeros (hcd : c.SameButHidden d) : c.padZeros.SameButHidden d.padZeros := by
  have hfill : ∀ hi, zeroFill (writeAt c.buf c.n 0x80) (c.n.toNat + 1) hi =
      zeroFill (writeAt d.buf d.n 0x80) (d.n.toNat + 1) hi := by
    intro hi
    rw [hcd.buf, hcd.n]
  by_cases hn : d.n.toNat < 56
  · rw [c.padZeros_fits (hcd.n ▸ hn), d.padZeros_fits hn]
    exact hcd.setBuf (hfill 55)
  · have hn' : 56 ≤ d.n.toNat := Nat.not_lt.mp hn
    rw [c.padZeros_overflows (hcd.n ▸ hn'), d.padZeros_overflows hn']
    have hfirst := (hcd.setBuf (hfill 63)).blockProcess
    exact hfirst.setBuf (congrArg (zeroFill · 0 55) hfirst.buf)

theorem finalize (hcd : c.SameButHidden d) (le : Bool) : (c.finalize le).SameButHidden (d.finalize le) := by
  have hpad := hcd.padZeros
  rw [finalize_eq, finalize_eq]
  have hlength : memWrite c.padZeros.buf 56 (be64bytes c.padZeros.len) =
      memWrite d.padZeros.buf 56 (be64bytes d.padZeros.len) := by rw [hpad.buf, hpad.len]
  exact (((hpad.setBuf hlength).blockProcess.setN rfl).digestOp le).setFin true

/-- A command answers both alike, and its effect does not let them differ more. -/
theorem commandEffect (hcd : c.SameButHidden d) (i : Instr) :
    (commandEffect i c).1.SameButHidden (commandEffect i d).1 ∧ (commandEffect i c).2 = (commandEffect i d).2 := by
  cases i with
  | nop => exact ⟨hcd, rfl⟩
  | init => exact ⟨hcd.startTransaction, rfl⟩
  | push b =>
    simp only [Machine.commandEffect, hcd.fin]
    split
    · exact ⟨hcd, rfl⟩
    · exact ⟨hcd.pushByte b, rfl⟩
  | final le =>
    simp only [Machine.commandEffect, hcd.fin]
    split
    · exact ⟨hcd, rfl⟩
    · exact ⟨hcd.finalize le, rfl⟩
  | block => exact ⟨hcd.blockProcess, rfl⟩
  | digest le => exact ⟨hcd.digestOp le, rfl⟩
  | rdhex k =>
    simp only [Machine.commandEffect, hexAt, hcd.hexv, hcd.hex]
    split <;> exact ⟨hcd, rfl⟩
  | rdstat =>
    have hstatus : c.status = d.status := by simp only [status, hcd.hexv, hcd.fin, hcd.n]
    exact ⟨hcd, congrArg (Response.mk false) hstatus⟩
  | ldb k b => exact ⟨hcd.loadByte k b, rfl⟩

theorem moveEffect (hcd : c.SameButHidden d) (a : HostAction) :
    (moveEffect a c).1.SameButHidden (moveEffect a d).1 ∧ (moveEffect a c).2 = (moveEffect a d).2 := by
  cases a with
  | reset => exact ⟨⟨rfl, rfl, rfl, rfl, rfl, rfl, rfl⟩, rfl⟩
  | idle => exact ⟨hcd, rfl⟩
  | command w =>
    cases hw : decode w with
    | illegal why => rw [moveEffect_illegal hw, moveEffect_illegal hw]; exact ⟨hcd, rfl⟩
    | legal i =>
      obtain ⟨hcore, hresponse⟩ := hcd.commandEffect i
      rw [moveEffect_legal hw, moveEffect_legal hw, hresponse]
      exact ⟨hcore, rfl⟩

end CoreState.SameButHidden

/-- Settles O46: a step is the effect of one move, and each move answers the two cores alike. -/
theorem hiddenRegistersAreNeverRead : Obligations.HiddenRegistersAreNeverRead := by
  unfold Obligations.HiddenRegistersAreNeverRead
  intro s₁ s₂ t₁ hcore hinputs hresponses hstep
  rw [step_eq_moveEffect, hinputs] at hstep
  cases hstep
  obtain ⟨hcore', hanswer⟩ := hcore.moveEffect (s₂.inputs.headD .idle)
  exact ⟨_, step_eq_moveEffect s₂, hcore', rfl, by rw [hresponses, hanswer]⟩

end Sys2Proof.Machine
end

section
/-! A step whose move is a word (20_memory.md R50): the word is accepted at the state with the move taken away. -/

namespace Sys2Proof.Machine

theorem step_of_command {s : State} {c : BitVec 16} {rest : List HostAction} (hin : s.inputs = .command c :: rest) :
    step s = acceptWord c { s with inputs := rest } := by
  rw [step_eq_moveEffect, acceptWord_eq_moveEffect, hin]
  rfl

/-- The word is put before the other moves and taken away again, so the state it is accepted at is `s` itself. -/
theorem step_presentWord (c : BitVec 16) (s : State) : step (presentWord c s) = acceptWord c s :=
  step_of_command rfl

/-- Only the low 16 bits of the word are presented, and they are its value as a `BitVec 16` (log entry 8). -/
theorem State.withFetchWord_sixteen (s : State) (w : Nat) :
    s.withFetchWord 16 w = presentWord (BitVec.ofNat 16 w) s := by
  have hlow : BitVec.ofNat 16 (w % 2 ^ 16) = BitVec.ofNat 16 w := BitVec.eq_of_toNat_eq (by simp)
  rw [State.withFetchWord, hlow]

/-- Settles O10: the step accepts the word, and accepting a word that decodes to a command is executing it. -/
theorem stepRunsDecodedCommand : Obligations.StepRunsDecodedCommand := by
  unfold Obligations.StepRunsDecodedCommand
  constructor
  · intro s c i rest hin hdecode
    rw [step_of_command hin, acceptWord_legal hdecode]
  · intro s w i hdecode
    rw [State.withFetchWord_sixteen, step_presentWord, acceptWord_legal hdecode]

end Sys2Proof.Machine
end

section
/-! The opcode map of 30_encoding.md R65 as a table: its row for each mnemonic, the interval of words a row covers, and
the command whose operands are the fields of a word. -/

namespace Sys2Proof

/-- The row of the opcode map with this mnemonic (30_encoding.md R65). -/
def Opcode.row : Opcode → OpcodeRow
  | .nop    => ⟨.nop,    0xFFFF, 0x0000⟩
  | .init   => ⟨.init,   0xFFFF, 0x1000⟩
  | .push   => ⟨.push,   0xFF00, 0x2000⟩
  | .final  => ⟨.final,  0xFFFE, 0x3000⟩
  | .block  => ⟨.block,  0xFFFF, 0x4000⟩
  | .digest => ⟨.digest, 0xFFFE, 0x5000⟩
  | .rdhex  => ⟨.rdhex,  0xFFC0, 0x6000⟩
  | .rdstat => ⟨.rdstat, 0xFFFF, 0x7000⟩
  | .ldb    => ⟨.ldb,    0xC000, 0xC000⟩

/-- The number of the mnemonic's first word, the one with all operand bits 0 (the table of 30_encoding.md R70). -/
def Opcode.base : Opcode → Nat
  | .nop    => 0x0000
  | .init   => 0x1000
  | .push   => 0x2000
  | .final  => 0x3000
  | .block  => 0x4000
  | .digest => 0x5000
  | .rdhex  => 0x6000
  | .rdstat => 0x7000
  | .ldb    => 0xC000

/-- The number of operand bits of the mnemonic's format; they are the low bits of the word (30_encoding.md R63). -/
def Opcode.operandBits : Opcode → Nat
  | .nop | .init | .block | .rdstat => 0
  | .final | .digest => 1
  | .rdhex => 6
  | .push => 8
  | .ldb => 14

/-- The command with this mnemonic whose operands are the fields of the word (30_encoding.md R63, R64). -/
def Opcode.commandAt (c : BitVec 16) : Opcode → Instr
  | .nop    => .nop
  | .init   => .init
  | .push   => .push (c.extractLsb' 0 8)
  | .final  => .final (c.getLsbD 0)
  | .block  => .block
  | .digest => .digest (c.getLsbD 0)
  | .rdhex  => .rdhex (c.extractLsb' 0 6)
  | .rdstat => .rdstat
  | .ldb    => .ldb (c.extractLsb' 8 6) (c.extractLsb' 0 8)

@[simp] theorem Opcode.row_opcode (op : Opcode) : op.row.opcode = op := by cases op <;> rfl

@[simp] theorem Opcode.opcode_commandAt (op : Opcode) (c : BitVec 16) : (op.commandAt c).opcode = op := by
  cases op <;> rfl

theorem Opcode.forall_iff {p : Opcode → Prop} :
    (∀ op, p op) ↔ p .nop ∧ p .init ∧ p .push ∧ p .final ∧ p .block ∧ p .digest ∧ p .rdhex ∧ p .rdstat ∧ p .ldb := by
  constructor
  · exact fun h => ⟨h _, h _, h _, h _, h _, h _, h _, h _, h _⟩
  · rintro ⟨hnop, hinit, hpush, hfinal, hblock, hdigest, hrdhex, hrdstat, hldb⟩ op
    cases op <;> assumption

/-- The opcode map has one row for each mnemonic. -/
theorem mem_opcodeMap_iff {r : OpcodeRow} : r ∈ opcodeMap ↔ ∃ op : Opcode, r = op.row := by
  constructor
  · have hrows : ∀ r ∈ opcodeMap, r = r.opcode.row := by decide
    exact fun hr => ⟨_, hrows r hr⟩
  · rintro ⟨op, rfl⟩
    cases op <;> decide

theorem Opcode.row_value_toNat (op : Opcode) : op.row.value.toNat = op.base := by cases op <;> rfl

theorem Opcode.row_mask (op : Opcode) : op.row.mask = BitVec.allOnes 16 <<< op.operandBits := by
  cases op <;> rfl

/-- Masking off the low `k` bits rounds the number down to a multiple of `2 ^ k`. -/
theorem toNat_and_allOnes_shiftLeft (c : BitVec 16) {k : Nat} :
    (c &&& BitVec.allOnes 16 <<< k).toNat = c.toNat / 2 ^ k * 2 ^ k := by
  have hbits : c &&& BitVec.allOnes 16 <<< k = c >>> k <<< k := by
    ext i hi
    by_cases hik : i < k
    · simp [hik]
    · have hsource : k + (i - k) = i := by omega
      simp [hik, hsource, -BitVec.reduceAllOnes, BitVec.getLsbD_eq_getElem hi]
  have hle : c.toNat / 2 ^ k * 2 ^ k ≤ c.toNat := Nat.div_mul_le_self _ _
  rw [hbits, BitVec.toNat_shiftLeft, BitVec.toNat_ushiftRight, Nat.shiftRight_eq_div_pow, Nat.shiftLeft_eq,
    Nat.mod_eq_of_lt (hle.trans_lt c.isLt)]

/-- A row covers an interval: its match and the words that differ from it in the operand bits. -/
theorem Opcode.row_covers_iff_toNat {op : Opcode} {c : BitVec 16} :
    op.row.covers c ↔ op.base ≤ c.toNat ∧ c.toNat < op.base + 2 ^ op.operandBits := by
  rw [OpcodeRow.covers, row_mask, ← BitVec.toNat_inj, toNat_and_allOnes_shiftLeft, row_value_toNat]
  cases op <;> simp only [base, operandBits] <;> omega

theorem extractLsb'_eq_iff_toNat {c : BitVec 16} {lo n : Nat} {v : BitVec n} :
    c.extractLsb' lo n = v ↔ c.toNat / 2 ^ lo % 2 ^ n = v.toNat := by
  rw [← BitVec.toNat_inj, BitVec.extractLsb'_toNat, Nat.shiftRight_eq_div_pow]

end Sys2Proof
end

section
/-! The decoder of 30_encoding.md R66 as a lookup in the opcode map, and what follows from it: the map selects the
command, and the reserved words are those that no row covers. -/

namespace Sys2Proof

/-- A word of a row is the command of the row: the decoder's tests before the row's own fail (R66). -/
theorem decode_of_covers {op : Opcode} {c : BitVec 16} (hc : op.row.covers c) : decode c = .legal (op.commandAt c) := by
  rw [Opcode.row_covers_iff_toNat] at hc
  simp only [decode, extractLsb'_eq_iff_toNat, BitVec.ofNat_eq_ofNat, BitVec.toNat_ofNat]
  cases op
  all_goals
    simp only [Opcode.base, Opcode.operandBits] at hc
    simp (disch := omega) only [↓if_neg, ↓if_pos, Opcode.commandAt]

/-- A word that decodes to a command passed the test of that command's row, and its operands are its fields (R66). -/
theorem covers_of_decode {c : BitVec 16} {i : Instr} (h : decode c = .legal i) :
    i.opcode.row.covers c ∧ i = i.opcode.commandAt c := by
  simp only [decode, extractLsb'_eq_iff_toNat, BitVec.ofNat_eq_ofNat, BitVec.toNat_ofNat] at h
  split_ifs at h <;> cases h
  all_goals
    refine ⟨Opcode.row_covers_iff_toNat.mpr ?_, rfl⟩
    simp only [Instr.opcode, Opcode.base, Opcode.operandBits]
    omega

/-- Decoding is looking the word up in the opcode map and reading the fields of the row (R65). -/
theorem decode_eq_legal_iff {c : BitVec 16} {i : Instr} :
    decode c = .legal i ↔ i.opcode.row.covers c ∧ i = i.opcode.commandAt c :=
  ⟨covers_of_decode, fun ⟨hcovers, hfields⟩ => by rw [hfields, ← decode_of_covers hcovers]⟩

theorem covers_iff_exists_decode {op : Opcode} {c : BitVec 16} :
    op.row.covers c ↔ ∃ i, decode c = .legal i ∧ i.opcode = op := by
  constructor
  · exact fun hc => ⟨_, decode_of_covers hc, op.opcode_commandAt c⟩
  · rintro ⟨i, hi, rfl⟩
    exact (covers_of_decode hi).1

/-- The rows are mutually exclusive, as a word decodes to one command only (R65). -/
theorem covers_unique {op op' : Opcode} {c : BitVec 16} (h : op.row.covers c) (h' : op'.row.covers c) : op = op' := by
  have hcommand : op.commandAt c = op'.commandAt c := by
    simpa using (decode_of_covers h).symm.trans (decode_of_covers h')
  simpa using congrArg Instr.opcode hcommand

theorem exists_decode_eq_legal_iff {c : BitVec 16} : (∃ i, decode c = .legal i) ↔ ∃ op : Opcode, op.row.covers c := by
  simp only [covers_iff_exists_decode]
  exact ⟨fun ⟨i, hi⟩ => ⟨_, i, hi, rfl⟩, fun ⟨_, i, hi, _⟩ => ⟨i, hi⟩⟩

theorem exists_decode_eq_illegal_iff {c : BitVec 16} :
    (∃ why, decode c = .illegal why) ↔ ∀ op : Opcode, ¬ op.row.covers c := by
  rw [← not_exists, ← exists_decode_eq_legal_iff]
  cases decode c <;> simp

/-- Settles O3: the decoder is a lookup in the opcode map. -/
theorem opcodeMapSelectsCommand : Obligations.OpcodeMapSelectsCommand := by
  unfold Obligations.OpcodeMapSelectsCommand
  refine ⟨fun c => ?_, fun c r hr => ?_, fun c r hr r' hr' h h' => ?_⟩
  · simp [decode_eq_legal_iff, OpcodeRow.covers, Instr.opcode, Opcode.row, Opcode.commandAt]
  · obtain ⟨op, rfl⟩ := mem_opcodeMap_iff.mp hr
    simpa using covers_iff_exists_decode
  · obtain ⟨op, rfl⟩ := mem_opcodeMap_iff.mp hr
    obtain ⟨op', rfl⟩ := mem_opcodeMap_iff.mp hr'
    rw [covers_unique h h']

/-- Settles O5: the listed ranges are the gaps between the intervals of the rows, and a word in one is refused. -/
theorem reservedWordsAreRefused : Obligations.ReservedWordsAreRefused := by
  unfold Obligations.ReservedWordsAreRefused
  constructor
  · intro c
    have hc := c.isLt
    rw [exists_decode_eq_illegal_iff, Opcode.forall_iff]
    simp only [Opcode.row_covers_iff_toNat, Opcode.base, Opcode.operandBits]
    omega
  · intro c why s rest hdecode hin
    rw [Machine.step_of_command hin, Machine.acceptWord_eq_moveEffect, Machine.moveEffect_illegal hdecode]

end Sys2Proof
end

section
/-! The words of the commands as numbers (30_encoding.md R70), and that the encoder and the decoder undo each other. -/

namespace Sys2Proof

/-- Putting a field into zero bits adds its value. -/
theorem toNat_or_setWidth {k : Nat} {v : BitVec 16} (hk : k ≤ 16) (hv : 2 ^ k ∣ v.toNat) (x : BitVec k) :
    (v ||| x.setWidth 16).toNat = v.toNat + x.toNat := by
  obtain ⟨a, ha⟩ := hv
  rw [BitVec.toNat_or, BitVec.toNat_setWidth_of_le hk, ha, Nat.two_pow_add_eq_or_of_lt x.isLt]

@[simp] theorem encode_nop_toNat : (encode .nop).toNat = 0x0000 := rfl

@[simp] theorem encode_init_toNat : (encode .init).toNat = 0x1000 := rfl

@[simp] theorem encode_push_toNat (b : Byte) : (encode (.push b)).toNat = 0x2000 + b.toNat :=
  toNat_or_setWidth (by decide) (by decide) b

@[simp] theorem encode_final_toNat (le : Bool) : (encode (.final le)).toNat = 0x3000 + le.toNat := by cases le <;> rfl

@[simp] theorem encode_block_toNat : (encode .block).toNat = 0x4000 := rfl

@[simp] theorem encode_digest_toNat (le : Bool) : (encode (.digest le)).toNat = 0x5000 + le.toNat := by cases le <;> rfl

@[simp] theorem encode_rdhex_toNat (i : BitVec 6) : (encode (.rdhex i)).toNat = 0x6000 + i.toNat :=
  toNat_or_setWidth (by decide) (by decide) i

@[simp] theorem encode_rdstat_toNat : (encode .rdstat).toNat = 0x7000 := rfl

@[simp] theorem encode_ldb_toNat (i : BitVec 6) (b : Byte) :
    (encode (.ldb i b)).toNat = 0xC000 + 256 * i.toNat + b.toNat := by
  have hshift : (i.setWidth 16 <<< 8).toNat = 2 ^ 8 * i.toNat := by
    rw [BitVec.toNat_shiftLeft, BitVec.toNat_setWidth_of_le (by decide), Nat.shiftLeft_eq, Nat.mod_eq_of_lt (by omega),
      Nat.mul_comm]
  have hindex : (0xC000#16 ||| i.setWidth 16 <<< 8).toNat = 0xC000 + 2 ^ 8 * i.toNat := by
    rw [BitVec.toNat_or, hshift]
    exact (Nat.two_pow_add_eq_or_of_lt (i := 14) (by omega) 3).symm
  rw [encode, toNat_or_setWidth (by decide) (by rw [hindex]; omega), hindex]
  rfl

/-- Settles O4, from the number of each command's word. -/
theorem wordsCarryTheirOperands : Obligations.WordsCarryTheirOperands := by
  unfold Obligations.WordsCarryTheirOperands
  simp

/-- The word of every command lies in the row with the command's mnemonic. -/
theorem covers_encode (i : Instr) : i.opcode.row.covers (encode i) := by
  have hrow : Laws.InOwnRow.Statement i := by
    cases i with
    | nop => exact Laws.InOwnRow.nop
    | init => exact Laws.InOwnRow.init
    | push b => exact Laws.InOwnRow.push b
    | final le => exact Laws.InOwnRow.final le
    | block => exact Laws.InOwnRow.block
    | digest le => exact Laws.InOwnRow.digest le
    | rdhex i => exact Laws.InOwnRow.rdhex i
    | rdstat => exact Laws.InOwnRow.rdstat
    | ldb i b => exact Laws.InOwnRow.ldb i b
  obtain ⟨r, hr, hop, hcovers⟩ := hrow
  obtain ⟨op, rfl⟩ := mem_opcodeMap_iff.mp hr
  rwa [← hop, op.row_opcode]

/-- The fields of a command's word are its operands. -/
theorem commandAt_encode (i : Instr) : i.opcode.commandAt (encode i) = i := by
  cases i with
  | nop | init | block | rdstat => rfl
  | final le | digest le => cases le <;> rfl
  | push b | rdhex i =>
    simp only [Instr.opcode, Opcode.commandAt, Instr.push.injEq, Instr.rdhex.injEq, extractLsb'_eq_iff_toNat,
      encode_push_toNat, encode_rdhex_toNat]
    omega
  | ldb i b =>
    simp only [Instr.opcode, Opcode.commandAt, Instr.ldb.injEq, extractLsb'_eq_iff_toNat, encode_ldb_toNat]
    omega

theorem toNat_getLsbD_zero (c : BitVec 16) : (c.getLsbD 0).toNat = c.toNat % 2 := by
  rw [BitVec.getLsbD, Nat.toNat_testBit, pow_zero, Nat.div_one]

/-- A word of a row has no bits beside the row's match and its fields. -/
theorem encode_commandAt {op : Opcode} {c : BitVec 16} (hc : op.row.covers c) : encode (op.commandAt c) = c := by
  rw [Opcode.row_covers_iff_toNat] at hc
  apply BitVec.eq_of_toNat_eq
  cases op with
  | nop | init | block | rdstat =>
    simp only [Opcode.base, Opcode.operandBits] at hc
    simp only [Opcode.commandAt, encode_nop_toNat, encode_init_toNat, encode_block_toNat, encode_rdstat_toNat]
    omega
  | final | digest =>
    simp only [Opcode.base, Opcode.operandBits] at hc
    simp only [Opcode.commandAt, encode_final_toNat, encode_digest_toNat, toNat_getLsbD_zero]
    omega
  | push | rdhex | ldb =>
    simp only [Opcode.base, Opcode.operandBits] at hc
    simp only [Opcode.commandAt, encode_push_toNat, encode_rdhex_toNat, encode_ldb_toNat, BitVec.extractLsb'_toNat,
      Nat.shiftRight_eq_div_pow]
    omega

theorem decode_encode (i : Instr) : decode (encode i) = .legal i :=
  decode_eq_legal_iff.mpr ⟨covers_encode i, (commandAt_encode i).symm⟩

theorem encode_of_decode {c : BitVec 16} {i : Instr} (h : decode c = .legal i) : encode i = c := by
  obtain ⟨hcovers, hfields⟩ := covers_of_decode h
  rw [hfields, encode_commandAt hcovers]

/-- Settles O1: a command's word lies in the command's row, and its fields are the operands. -/
theorem decodeUndoesEncode : Obligations.DecodeUndoesEncode := decode_encode

/-- Settles O2: a legal word is the match of its row and its fields. -/
theorem encodeUndoesDecode : Obligations.EncodeUndoesDecode := fun _ _ => encode_of_decode

/-- Settles O7, on the fifteen words themselves. -/
theorem listedWordsDecode : Obligations.ListedWordsDecode := by
  unfold Obligations.ListedWordsDecode
  decide

end Sys2Proof
end

section
/-! The legal words, counted row by row: `2 ^ operandBits` words of each mnemonic (30_encoding.md R66). -/

namespace Sys2Proof

/-- The words of a mnemonic, in increasing order. -/
def Opcode.words (op : Opcode) : List (BitVec 16) :=
  (List.range' op.base (2 ^ op.operandBits)).map (BitVec.ofNat 16)

@[simp] theorem Opcode.length_words (op : Opcode) : op.words.length = 2 ^ op.operandBits := by simp [words]

theorem Opcode.base_add_le (op : Opcode) : op.base + 2 ^ op.operandBits ≤ 2 ^ 16 := by
  cases op <;> decide

theorem Opcode.mem_words {op : Opcode} {c : BitVec 16} : c ∈ op.words ↔ op.row.covers c := by
  have hend := op.base_add_le
  rw [words, List.mem_map, row_covers_iff_toNat]
  constructor
  · rintro ⟨k, hk, rfl⟩
    rw [List.mem_range'_1] at hk
    rwa [BitVec.toNat_ofNat, Nat.mod_eq_of_lt (by omega)]
  · exact fun hc => ⟨c.toNat, List.mem_range'_1.mpr hc, by simp⟩

theorem Opcode.nodup_words (op : Opcode) : op.words.Nodup := by
  have hend := op.base_add_le
  refine List.Nodup.map_on (fun j hj k hk hjk => ?_) List.nodup_range'
  rw [List.mem_range'_1] at hj hk
  have hmod := congrArg BitVec.toNat hjk
  rwa [BitVec.toNat_ofNat, BitVec.toNat_ofNat, Nat.mod_eq_of_lt (by omega), Nat.mod_eq_of_lt (by omega)] at hmod

/-- The words of all rows of the opcode map. -/
def legalWords : List (BitVec 16) := (opcodeMap.map OpcodeRow.opcode).flatMap Opcode.words

theorem mem_legalWords {c : BitVec 16} : c ∈ legalWords ↔ ∃ i, decode c = .legal i := by
  have hall : ∀ op : Opcode, op ∈ opcodeMap.map OpcodeRow.opcode := fun op =>
    List.mem_map.mpr ⟨_, mem_opcodeMap_iff.mpr ⟨op, rfl⟩, op.row_opcode⟩
  simp only [legalWords, List.mem_flatMap, hall, true_and, Opcode.mem_words, exists_decode_eq_legal_iff]

theorem nodup_legalWords : legalWords.Nodup := by
  have hopcodes : (opcodeMap.map OpcodeRow.opcode).Nodup := by decide
  refine List.nodup_flatMap.mpr ⟨fun op _ => op.nodup_words, hopcodes.imp fun hne c hc hc' => hne ?_⟩
  exact covers_unique (Opcode.mem_words.mp hc) (Opcode.mem_words.mp hc')

theorem length_legalWords : legalWords.length = 16712 := by
  simp only [legalWords, List.length_flatMap, Opcode.length_words]
  rfl

/-- Settles O6: the words of the rows, of which no two share one, are the legal words. -/
theorem legalWordCount : Obligations.LegalWordCount :=
  ⟨legalWords, nodup_legalWords, length_legalWords, fun _ => mem_legalWords⟩

end Sys2Proof
end

section
/-! The assembler's instructions and pseudo-instructions as commands (30_encoding.md R70, R71). -/

namespace Sys2Proof

theorem Instr.wellFormed_eq_true (i : Instr) : i.wellFormed = true := by
  cases i with
  | nop => exact Laws.WellFormed.nop
  | init => exact Laws.WellFormed.init
  | push b => exact Laws.WellFormed.push b
  | final le => exact Laws.WellFormed.final le
  | block => exact Laws.WellFormed.block
  | digest le => exact Laws.WellFormed.digest le
  | rdhex i => exact Laws.WellFormed.rdhex i
  | rdstat => exact Laws.WellFormed.rdstat
  | ldb i b => exact Laws.WellFormed.ldb i b

theorem Instr.truncated_toSource (i : Instr) : i.toSource.truncated = i := by
  cases i with
  | nop | init | block | rdstat => rfl
  | final le | digest le => cases le <;> rfl
  | push b | rdhex i | ldb i b => simp [toSource, Source.truncated]

/-- Operands in range keep their values in the command. -/
theorem Source.toSource_truncated {x : Source} (hx : x.wellFormed = true) : x.truncated.toSource = x := by
  cases x with
  | nop | init | block | rdstat => rfl
  | final le | digest le =>
    have hle : le ≤ 1 := by simpa [wellFormed] using hx
    interval_cases le <;> rfl
  | push b | rdhex i =>
    simp only [wellFormed, decide_eq_true_eq] at hx
    simp [truncated, Instr.toSource]
    omega
  | ldb i b =>
    simp only [wellFormed, Bool.and_eq_true, decide_eq_true_eq] at hx
    simp [truncated, Instr.toSource]
    omega

/-- Settles O8: the operands of a command are in range, and those in range keep their values. -/
theorem operandsInRangeHaveACommand : Obligations.OperandsInRangeHaveACommand := by
  unfold Obligations.OperandsInRangeHaveACommand
  intro x i
  constructor
  · intro h
    obtain ⟨hx, rfl⟩ : x.wellFormed = true ∧ x.truncated = i := by simpa [Source.toInstr] using h
    exact Source.toSource_truncated hx
  · rintro rfl
    have hi : i.toSource.wellFormed = true := i.wellFormed_eq_true
    rw [Source.toInstr, if_pos hi, i.truncated_toSource]

namespace Machine

@[simp] theorem toBytes_map_toNat (m : List Byte) : toBytes (m.map BitVec.toNat) = some m := by
  have hbytes : (m.map BitVec.toNat).all (· ≤ 255) = true := by
    simp only [List.all_map, List.all_eq_true, Function.comp_apply, decide_eq_true_eq]
    intro b _
    omega
  have hvalues : (m.map BitVec.toNat).map (BitVec.ofNat 8) = m := by
    rw [List.map_map]
    exact List.map_id'' (fun b => by simp) m
  rw [toBytes, if_pos hbytes, hvalues]

@[simp] theorem toBlock_map_toNat (b : Block) : toBlock (b.toList.map BitVec.toNat) = some b := by
  simp [toBlock, Vector.toArray_toList]

/-- Settles O9: the bytes of a line are read back, and the sequences are those of the definitions, index by index. -/
theorem pseudoInstructionsExpand : Obligations.PseudoInstructionsExpand := by
  unfold Obligations.PseudoInstructionsExpand
  intro m le b
  have hle : le.toNat ≤ 1 ∧ (le.toNat == 1) = le := by cases le <;> decide
  refine ⟨?_, rfl, ?_, rfl, ?_, ?_, ?_, ?_, ?_, ?_⟩
  · simp [AsmLine.expand, hle, hashCommands]
  · simp [hashCommands]
  · simp [rdstrCommands]
  · intro k hk
    simp [rdstrCommands, hk]
  · simp [AsmLine.expand]
  · simp [ldblkCommands]
  · intro k hk
    rw [ldblkCommands, List.getElem?_map, List.getElem?_eq_getElem (by simpa using hk), List.getElem_finRange]
    rfl
  · simp [AsmLine.expand, rawblkCommands]

end Machine

end Sys2Proof
end

section
/-! The padded message as a list (40_padding.md R80 to R82): its length, and its four parts one after the other. -/

namespace Sys2Proof.Machine

/-- The number of zero bytes between the marker and the length field (40_padding.md R80). -/
def padZeroCount (n : Nat) : Nat := ((55 - (n : Int)) % 64).toNat

theorem pad_eq_padZeroCount (m : List Byte) :
    pad m = m ++ [0x80] ++ List.replicate (padZeroCount m.length) 0 ++
      (be64bytes (BitVec.ofNat 64 (8 * m.length))).toList := rfl

/-- The zeros are as many as bring the message, the marker and the length field to whole blocks (40_padding.md R81). -/
theorem add_padZeroCount (n : Nat) : n + 1 + padZeroCount n + 8 = 64 * ((n + 8) / 64 + 1) := by
  unfold padZeroCount
  omega

/-- The length field fits into the block of the last message byte. -/
theorem padZeroCount_fits {n : Nat} (hn : n % 64 < 56) : padZeroCount n = 55 - n % 64 := by
  unfold padZeroCount
  omega

/-- The length field needs a block of its own, which starts with 56 zeros. -/
theorem padZeroCount_overflows {n : Nat} (hn : 56 ≤ n % 64) : padZeroCount n = 63 - n % 64 + 56 := by
  unfold padZeroCount
  omega

theorem length_pad (m : List Byte) : (pad m).length = 64 * ((m.length + 8) / 64 + 1) := by
  rw [← add_padZeroCount, pad_eq_padZeroCount]
  simp only [List.length_append, List.length_singleton, List.length_replicate, Vector.length_toList]

theorem length_blocks (m : List Byte) : (blocks m).length = m.length / 64 := by simp [blocks]

theorem getElem?_pad_message {m : List Byte} {i : Nat} (hi : i < m.length) : (pad m)[i]? = m[i]? := by
  rw [pad_eq_padZeroCount, List.append_assoc, List.append_assoc, List.getElem?_append_left hi]

theorem getElem?_pad_marker (m : List Byte) : (pad m)[m.length]? = some 0x80 := by
  rw [pad_eq_padZeroCount, List.append_assoc, List.append_assoc, List.getElem?_append_right le_rfl, Nat.sub_self]
  rfl

theorem getElem?_pad_zero {m : List Byte} {i : Nat} (hlo : m.length < i) (hhi : i < (pad m).length - 8) :
    (pad m)[i]? = some 0 := by
  rw [length_pad, ← add_padZeroCount] at hhi
  rw [pad_eq_padZeroCount, List.getElem?_append_left (by simp; omega), List.getElem?_append_right (by simp; omega),
    List.getElem?_replicate_of_lt (by simp; omega)]

theorem getElem?_pad_lengthField (m : List Byte) {j : Nat} (hj : j < 8) :
    (pad m)[(pad m).length - 8 + j]? = some ((BitVec.ofNat 64 (8 * m.length)).extractLsb' (56 - 8 * j) 8) := by
  have hfront : (m ++ [0x80] ++ List.replicate (padZeroCount m.length) 0).length = (pad m).length - 8 := by
    rw [length_pad, ← add_padZeroCount]
    simp
    omega
  rw [← hfront, pad_eq_padZeroCount, List.getElem?_append_right (Nat.le_add_right _ _), Nat.add_sub_cancel_left,
    List.getElem?_eq_getElem (by simpa using hj), Vector.getElem_toList, getElem_be64bytes _ _ hj]

/-- Settles O41, part by part of the padded message. -/
theorem paddingShape : Obligations.PaddingShape := by
  unfold Obligations.PaddingShape
  intro m
  refine ⟨length_pad m, ?_, fun i => getElem?_pad_message, getElem?_pad_marker m, fun i => getElem?_pad_zero, ?_⟩
  · rw [length_blocks, length_pad, Nat.mul_div_cancel_left _ (by decide)]
  · intro j hj
    rw [getElem?_pad_lengthField m hj]
    refine congrArg some (BitVec.eq_of_toNat_eq ?_)
    rw [BitVec.extractLsb'_toNat, BitVec.toNat_ofNat, BitVec.toNat_ofNat, Nat.shiftRight_eq_div_pow]

end Sys2Proof.Machine
end

section
/-! The blocks of a byte list (44_serialize_hex.md R133) undo the concatenation of blocks, whatever is left over. -/

namespace Sys2Proof.Machine

theorem blocks_of_length_lt {r : List Byte} (hr : r.length < 64) : blocks r = [] := by
  rw [← List.length_eq_zero_iff, length_blocks, Nat.div_eq_of_lt hr]

theorem blocks_toList_append (b : Block) (m : List Byte) : blocks (b.toList ++ m) = b :: blocks m := by
  have hcount : (b.toList ++ m).length / 64 = m.length / 64 + 1 := by
    rw [List.length_append, Vector.length_toList]
    omega
  rw [blocks, hcount, List.range_succ_eq_map, List.map_cons, List.map_map]
  refine congrArg₂ List.cons ?_ ?_
  · refine Vector.ext fun j hj => ?_
    rw [Vector.getElem_ofFn, List.getD_append _ _ _ _ (by simpa using hj), List.getD_eq_getElem _ _ (by simpa using hj)]
    simp
  · refine List.map_congr_left fun k _ => Vector.ext fun j hj => ?_
    simp only [Function.comp_apply]
    rw [Vector.getElem_ofFn, Vector.getElem_ofFn, List.getD_append_right _ _ _ _ (by simp; omega), Vector.length_toList]
    exact congrArg (m.getD · 0) (by simp only [Nat.succ_eq_add_one]; omega)

theorem blocks_flatMap_toList_append (bs : List Block) {r : List Byte} (hr : r.length < 64) :
    blocks (bs.flatMap Vector.toList ++ r) = bs := by
  induction bs with
  | nil => exact blocks_of_length_lt hr
  | cons b bs ih => rw [List.flatMap_cons, List.append_assoc, blocks_toList_append, ih]

theorem blocks_flatMap_toList (bs : List Block) : blocks (bs.flatMap Vector.toList) = bs := by
  simpa using blocks_flatMap_toList_append bs (r := []) (by decide)

theorem length_flatMap_toList (bs : List Block) : (bs.flatMap Vector.toList).length = 64 * bs.length := by
  induction bs with
  | nil => rfl
  | cons b bs ih =>
    rw [List.flatMap_cons, List.length_append, Vector.length_toList, ih, List.length_cons]
    omega

theorem chain_append (hin : HashState) (xs ys : List Block) : chain hin (xs ++ ys) = chain (chain hin xs) ys := by
  induction xs generalizing hin with
  | nil => rfl
  | cons x xs ih => exact ih _

end Sys2Proof.Machine
end

section
/-! BlockProcess as the compression of BUF into H (42_compression.md R105, R106): the schedule is that of the block,
whatever W held. -/

namespace Sys2Proof.Machine

@[simp] theorem accum_rounds_sched (hin : HashState) (b : Block) : accum hin (rounds hin (sched b)) = compress hin b := by
  rw [compress]

end Sys2Proof.Machine
end

section
/-! The effects of INIT and DIGEST, and of PUSH and FINAL in each of their two cases, as equations. -/

namespace Sys2Proof.Machine

theorem commandEffect_init (c : CoreState) : commandEffect .init c = (c.startTransaction, ⟨false, 0x00⟩) := rfl

theorem commandEffect_digest (le : Bool) (c : CoreState) :
    commandEffect (.digest le) c = (c.digestOp le, ⟨false, 0x00⟩) := rfl

theorem commandEffect_push {c : CoreState} (hfin : c.fin = false) (b : Byte) :
    commandEffect (.push b) c = (c.pushByte b, ⟨false, 0x00⟩) := by simp [commandEffect, hfin]

theorem commandEffect_final {c : CoreState} (hfin : c.fin = false) (le : Bool) :
    commandEffect (.final le) c = (c.finalize le, ⟨false, 0x00⟩) := by simp [commandEffect, hfin]

theorem commandEffect_push_refused {c : CoreState} (hfin : c.fin = true) (b : Byte) :
    commandEffect (.push b) c = (c, ⟨true, 0x03⟩) := by simp [commandEffect, hfin]

theorem commandEffect_final_refused {c : CoreState} (hfin : c.fin = true) (le : Bool) :
    commandEffect (.final le) c = (c, ⟨true, 0x03⟩) := by simp [commandEffect, hfin]

end Sys2Proof.Machine
end

section
/-! What a PUSH that completes does to the rest of the core (40_padding.md R83). As N has 6 bits, the 64th PUSH also adds
1 to it. -/

namespace Sys2Proof.Machine

variable (c : CoreState) (b : Byte)

@[simp] theorem CoreState.pushByte_buf : (c.pushByte b).buf = writeAt c.buf c.n b := by
  by_cases h : c.n = 63
  · simp [c.pushByte_last b h]
  · simp [c.pushByte_below b h]

@[simp] theorem CoreState.pushByte_len : (c.pushByte b).len = c.len + 8 := by
  by_cases h : c.n = 63
  · simp [c.pushByte_last b h]
  · simp [c.pushByte_below b h]

@[simp] theorem CoreState.pushByte_n : (c.pushByte b).n = c.n + 1 := by
  by_cases h : c.n = 63
  · rw [c.pushByte_last b h, CoreState.setN_n, h]
    rfl
  · rw [c.pushByte_below b h, CoreState.setN_n]

theorem CoreState.n_eq_last_iff : c.n = 63 ↔ c.n.toNat = 63 := BitVec.toNat_inj.symm

theorem CoreState.pushByte_n_below (h : c.n.toNat < 63) : (c.pushByte b).n.toNat = c.n.toNat + 1 := by
  rw [CoreState.pushByte_n, BitVec.toNat_add_of_lt (by simp; omega)]
  rfl

theorem CoreState.pushByte_n_last (h : c.n.toNat = 63) : (c.pushByte b).n = 0 := by
  rw [CoreState.pushByte_n, c.n_eq_last_iff.mpr h]
  rfl

/-- A byte that does not fill the buffer leaves the hash state and the hidden registers. -/
theorem CoreState.pushByte_frame_below (h : c.n.toNat < 63) :
    (c.pushByte b).h = c.h ∧ (c.pushByte b).vars = c.vars ∧ (c.pushByte b).w = c.w := by
  rw [c.pushByte_below b (fun hn => by rw [c.n_eq_last_iff] at hn; omega)]
  simp

/-- The byte that fills the buffer has it processed. -/
theorem CoreState.pushByte_processes_last (h : c.n.toNat = 63) :
    (c.pushByte b).h = compress c.h (c.pushByte b).buf ∧
      (c.pushByte b).w = sched (c.pushByte b).buf ∧
      (c.pushByte b).vars = rounds c.h (sched (c.pushByte b).buf) := by
  rw [CoreState.pushByte_buf, c.pushByte_last b (c.n_eq_last_iff.mpr h)]
  simp

/-- Settles O17: the effect of PUSH, at N below 63 and at N = 63. -/
theorem pushAppendsAByte : Obligations.PushAppendsAByte := by
  unfold Obligations.PushAppendsAByte
  intro b
  refine ⟨encode_push_toNat b, fun s hfin => ?_, fun s hfin => ?_⟩
  · rw [exec_eq_commandEffect, commandEffect_push_refused hfin]
  · refine ⟨_, by rw [exec_eq_commandEffect, commandEffect_push hfin], ?_⟩
    refine ⟨rfl, rfl, fun j hj => ?_, ?_, s.core.pushByte_dg b, s.core.pushByte_hex b, s.core.pushByte_hexv b,
      (s.core.pushByte_fin b).trans hfin,
      fun hn => ⟨s.core.pushByte_n_below b hn, s.core.pushByte_frame_below b hn⟩,
      fun hn => ⟨s.core.pushByte_n_last b hn, s.core.pushByte_processes_last b hn⟩⟩
    · simp only [CoreState.pushByte_buf, getElem_writeAt]
    · rw [CoreState.pushByte_len, BitVec.toNat_add]
      rfl

end Sys2Proof.Machine
end

section
/-! What a FINAL that completes leaves (40_padding.md R85): the padded blocks byte by byte, and the last BlockProcess. -/

namespace Sys2Proof.Machine

variable (c : CoreState) (le : Bool)

/-- BUF with the marker byte at N and zeros after it, up to index `hi` (40_padding.md R85). -/
def CoreState.markedBuffer (hi : Nat) : Block := zeroFill (writeAt c.buf c.n 0x80) (c.n.toNat + 1) hi

theorem CoreState.getElem_markedBuffer {hi j : Nat} (hj : j < 64) :
    (c.markedBuffer hi)[j] =
      if j < c.n.toNat then c.buf[j] else if j = c.n.toNat then 0x80 else if j ≤ hi then 0 else c.buf[j] := by
  rw [markedBuffer, getElem_zeroFill, getElem_writeAt]
  rcases Nat.lt_trichotomy j c.n.toNat with hlt | heq | hgt
  · rw [if_neg (by omega), if_neg (by omega), if_pos hlt]
  · rw [if_neg (by omega), if_pos heq, if_neg (by omega), if_pos heq]
  · simp only [if_neg hgt.ne', if_neg hgt.not_gt, Nat.succ_le_of_lt hgt, true_and]

theorem CoreState.padZeros_buf_fits (h : c.n.toNat < 56) : c.padZeros.buf = c.markedBuffer 55 := by
  rw [c.padZeros_fits h, CoreState.setBuf_buf, markedBuffer]

theorem CoreState.padZeros_h_fits (h : c.n.toNat < 56) : c.padZeros.h = c.h := by
  rw [c.padZeros_fits h, CoreState.setBuf_h]

theorem CoreState.padZeros_buf_overflows (h : 56 ≤ c.n.toNat) :
    c.padZeros.buf = zeroFill (c.markedBuffer 63) 0 55 := by
  rw [c.padZeros_overflows h]
  simp [markedBuffer]

theorem CoreState.padZeros_h_overflows (h : 56 ≤ c.n.toNat) :
    c.padZeros.h = compress c.h (c.markedBuffer 63) := by
  rw [c.padZeros_overflows h]
  simp [markedBuffer]

@[simp] theorem CoreState.finalize_buf : (c.finalize le).buf = memWrite c.padZeros.buf 56 (be64bytes c.len) := by
  simp [CoreState.finalize_eq]

theorem CoreState.finalize_h : (c.finalize le).h = compress c.padZeros.h (c.finalize le).buf := by
  simp [CoreState.finalize_eq]

theorem CoreState.finalize_w : (c.finalize le).w = sched (c.finalize le).buf := by
  simp [CoreState.finalize_eq]

theorem CoreState.finalize_vars : (c.finalize le).vars = rounds c.padZeros.h (sched (c.finalize le).buf) := by
  simp [CoreState.finalize_eq]

/-- The bytes before the length field: zeros only when the marker went into the block before (40_padding.md R85). -/
theorem CoreState.getElem_padZeros_buf {j : Nat} (hj : j < 64) (hlow : j < 56) :
    c.padZeros.buf[j] =
      if 56 ≤ c.n.toNat then 0
      else if j < c.n.toNat then c.buf[j] else if j = c.n.toNat then 0x80 else 0 := by
  by_cases hn : c.n.toNat < 56
  · simp only [c.padZeros_buf_fits hn, getElem_markedBuffer, if_neg (Nat.not_le.mpr hn), if_pos (Nat.le_of_lt_succ hlow)]
  · have hn' : 56 ≤ c.n.toNat := Nat.not_lt.mp hn
    simp only [c.padZeros_buf_overflows hn', getElem_zeroFill, if_pos hn']
    rw [if_pos ⟨Nat.zero_le j, Nat.le_of_lt_succ hlow⟩]

theorem CoreState.getElem_finalize_buf {j : Nat} (hj : j < 64) :
    (c.finalize le).buf[j] =
      if 56 ≤ j then c.len.extractLsb' (8 * (63 - j)) 8
      else if 56 ≤ c.n.toNat then 0
      else if j < c.n.toNat then c.buf[j] else if j = c.n.toNat then 0x80 else 0 := by
  simp only [finalize_buf, getElem_memWrite]
  by_cases hhigh : 56 ≤ j
  · rw [dif_pos ⟨hhigh, hj⟩, if_pos hhigh, getElem_be64bytes _ _ (by omega)]
    congr 1
    omega
  · rw [dif_neg (by omega), if_neg hhigh, c.getElem_padZeros_buf hj (by omega)]

/-- Settles O18: the padded blocks byte by byte, and the fields FINAL leaves. -/
theorem finalClosesTheMessage : Obligations.FinalClosesTheMessage := by
  unfold Obligations.FinalClosesTheMessage
  intro le
  refine ⟨encode_final_toNat le, fun s hfin => ?_, fun s hfin => ?_⟩
  · rw [exec_eq_commandEffect, commandEffect_final_refused hfin]
  · refine ⟨_, s.core.padZeros.h, by rw [exec_eq_commandEffect, commandEffect_final hfin], ?_⟩
    refine ⟨rfl, rfl, fun j hj => s.core.getElem_finalize_buf le hj, s.core.padZeros_h_fits,
      fun hn => ⟨s.core.markedBuffer 63, s.core.padZeros_h_overflows hn, fun j hj => ?_⟩, s.core.finalize_h le,
      s.core.finalize_w le, s.core.finalize_vars le, s.core.finalize_n le, s.core.finalize_len le, s.core.finalize_dg le,
      s.core.finalize_hex le, s.core.finalize_hexv le, s.core.finalize_fin le⟩
    rw [CoreState.getElem_markedBuffer, if_pos (Nat.le_of_lt_succ hj)]

end Sys2Proof.Machine
end

section
/-! The core while a message arrives (40_padding.md R84): BUF below N holds the bytes after the last whole block, and H
is the chain of the blocks before. -/

namespace Sys2Proof.Machine

/-- The filled part of BUF after one more byte. -/
theorem take_toList_writeAt {α : Type} (x : Vector α 64) (i : BitVec 6) (v : α) :
    (writeAt x i v).toList.take (i.toNat + 1) = x.toList.take i.toNat ++ [v] := by
  rw [writeAt, Vector.toList_set, List.take_add_one, List.take_set_of_le le_rfl,
    List.getElem?_set_self (by simpa using i.isLt)]
  rfl

/-- The core is that of a transaction in which exactly the bytes of `m` have been pushed (40_padding.md R84). -/
structure CoreState.Absorbed (c : CoreState) (m : List Byte) : Prop where
  /-- The message is its whole blocks and the filled part of BUF. -/
  bytes : m = (blocks m).flatMap Vector.toList ++ c.buf.toList.take c.n.toNat
  h     : c.h = chain Config.initialHash (blocks m)
  len   : c.len = BitVec.ofNat 64 (8 * m.length)
  fin   : c.fin = false

namespace CoreState

variable {c : CoreState} {m : List Byte}

@[simp] theorem length_filled (c : CoreState) : (c.buf.toList.take c.n.toNat).length = c.n.toNat := by
  rw [List.length_take_of_le (by rw [Vector.length_toList]; omega)]

theorem absorbed_of_bytes {bs : List Block} (hbytes : m = bs.flatMap Vector.toList ++ c.buf.toList.take c.n.toNat)
    (hh : c.h = chain Config.initialHash bs) (hlen : c.len = BitVec.ofNat 64 (8 * m.length)) (hfin : c.fin = false) :
    c.Absorbed m := by
  have hblocks : blocks m = bs := by
    rw [hbytes]
    exact blocks_flatMap_toList_append bs (by rw [length_filled]; omega)
  exact ⟨hblocks.symm ▸ hbytes, hblocks.symm ▸ hh, hlen, hfin⟩

theorem absorbed_startTransaction (c : CoreState) : c.startTransaction.Absorbed [] := by
  refine absorbed_of_bytes (bs := []) ?_ ?_ ?_ ?_
  · simp
  · simp [chain]
  · simp
  · simp

theorem Absorbed.n_eq (hc : c.Absorbed m) : c.n.toNat = m.length % 64 := by
  have hlength := congrArg List.length hc.bytes
  rw [List.length_append, length_flatMap_toList, length_filled] at hlength
  omega

theorem Absorbed.getElem_buf (hc : c.Absorbed m) {j : Nat} (hj : j < 64) (hjn : j < c.n.toNat) :
    some c.buf[j] = m[64 * (m.length / 64) + j]? := by
  have hstart : ((blocks m).flatMap Vector.toList).length = 64 * (m.length / 64) := by
    rw [length_flatMap_toList, length_blocks]
  have hbyte := congrArg (·[64 * (m.length / 64) + j]?) hc.bytes
  rw [hbyte, ← hstart, List.getElem?_append_right (Nat.le_add_right _ _), Nat.add_sub_cancel_left,
    List.getElem?_take_of_lt hjn, List.getElem?_eq_getElem (by simpa using hj), Vector.getElem_toList]

theorem Absorbed.digestOp (hc : c.Absorbed m) (le : Bool) : (c.digestOp le).Absorbed m := by
  constructor
  · simpa using hc.bytes
  · simpa using hc.h
  · simpa using hc.len
  · simpa using hc.fin

theorem Absorbed.pushByte (hc : c.Absorbed m) (b : Byte) : (c.pushByte b).Absorbed (m ++ [b]) := by
  have hbytes : m ++ [b] =
      (blocks m).flatMap Vector.toList ++ (c.pushByte b).buf.toList.take (c.n.toNat + 1) := by
    rw [pushByte_buf, take_toList_writeAt, ← List.append_assoc, ← hc.bytes]
  have hlen : (c.pushByte b).len = BitVec.ofNat 64 (8 * (m ++ [b]).length) := by
    rw [pushByte_len, hc.len, List.length_append, List.length_singleton, Nat.mul_add, BitVec.ofNat_add]
    rfl
  have hfin : (c.pushByte b).fin = false := (c.pushByte_fin b).trans hc.fin
  by_cases hn : c.n.toNat < 63
  · obtain ⟨hh, -, -⟩ := c.pushByte_frame_below b hn
    exact absorbed_of_bytes ((c.pushByte_n_below b hn).symm ▸ hbytes) (hh.trans hc.h) hlen hfin
  · have hlast : c.n.toNat = 63 := by omega
    obtain ⟨hh, -, -⟩ := c.pushByte_processes_last b hlast
    refine absorbed_of_bytes (bs := blocks m ++ [(c.pushByte b).buf]) ?_ ?_ hlen hfin
    · rw [hbytes, hlast, List.take_of_length_le (by simp), c.pushByte_n_last b hlast]
      simp
    · rw [hh, hc.h, chain_append]
      rfl

end CoreState

/-- The commands that may stand between INIT and FINAL keep the core that of the bytes pushed so far (40_padding.md
R84). -/
theorem CoreState.Absorbed.commandEffect {c : CoreState} {m : List Byte} (hc : c.Absorbed m) {i : Instr}
    (hi : i.isReading = true ∨ ∃ b, i = .push b) : (commandEffect i c).1.Absorbed (m ++ pushedBytes [i]) := by
  obtain hi | ⟨b, rfl⟩ := hi
  · cases i with
    | nop | rdstat => simpa [Machine.commandEffect, pushedBytes] using hc
    | rdhex k => cases hhexv : c.hexv <;> simpa [Machine.commandEffect, pushedBytes, hhexv] using hc
    | digest le => simpa [commandEffect_digest, pushedBytes] using hc.digestOp le
    | init | push b | final le | block | ldb k b => cases hi
  · simpa [commandEffect_push hc.fin, pushedBytes] using hc.pushByte b

theorem pushedBytes_cons (i : Instr) (p : List Instr) : pushedBytes (i :: p) = pushedBytes [i] ++ pushedBytes p := by
  cases i <;> rfl

theorem CoreState.Absorbed.coreAfter {c : CoreState} {m : List Byte} (hc : c.Absorbed m) {p : List Instr}
    (hp : ∀ i ∈ p, i.isReading = true ∨ ∃ b, i = .push b) : (coreAfter p c).Absorbed (m ++ pushedBytes p) := by
  induction p generalizing c m with
  | nil => simpa [pushedBytes, Machine.coreAfter] using hc
  | cons i p ih =>
    obtain ⟨hi, hp⟩ := List.forall_mem_cons.mp hp
    rw [pushedBytes_cons, ← List.append_assoc]
    exact ih (hc.commandEffect hi) hp

/-- Settles O47: INIT starts with no bytes, and each of the commands keeps the state that of the bytes pushed. -/
theorem messageSoFar : Obligations.MessageSoFar := by
  unfold Obligations.MessageSoFar
  intro s p hp
  have hc : (coreAfter p s.core.startTransaction).Absorbed (pushedBytes p) :=
    s.core.absorbed_startTransaction.coreAfter hp
  exact ⟨_, runCommands_eq decode_encode _ s, hc.n_eq, hc.len, fun _ => hc.getElem_buf, hc.h, hc.fin⟩

end Sys2Proof.Machine
end

section
/-! Reading the string (44_serialize_hex.md R136): 64 RDHEX with HEXV = 1 leave the core and answer its characters. -/

namespace Sys2Proof.Machine

theorem coreAfter_eq_self {p : List Instr} {c : CoreState} (hp : ∀ i ∈ p, (commandEffect i c).1 = c) :
    coreAfter p c = c := by
  induction p with
  | nil => rfl
  | cons i p ih =>
    obtain ⟨hi, hp⟩ := List.forall_mem_cons.mp hp
    rw [coreAfter, hi, ih hp]

theorem responsesTo_eq_map {p : List Instr} {c : CoreState} (hp : ∀ i ∈ p, (commandEffect i c).1 = c) :
    responsesTo p c = p.map fun i => (commandEffect i c).2 := by
  induction p with
  | nil => rfl
  | cons i p ih =>
    obtain ⟨hi, hp⟩ := List.forall_mem_cons.mp hp
    rw [responsesTo, hi, ih hp, List.map_cons]

variable {c : CoreState}

theorem commandEffect_of_mem_rdstrCommands {i : Instr} (hi : i ∈ rdstrCommands) : (commandEffect i c).1 = c := by
  obtain ⟨k, -, rfl⟩ := List.mem_map.mp hi
  cases hhexv : c.hexv <;> simp [commandEffect, hhexv]

theorem coreAfter_rdstrCommands : coreAfter rdstrCommands c = c :=
  coreAfter_eq_self fun _ => commandEffect_of_mem_rdstrCommands

theorem responsesTo_rdstrCommands (hhexv : c.hexv = true) :
    responsesTo rdstrCommands c = c.hex.toList.map fun d => ⟨false, d⟩ := by
  rw [responsesTo_eq_map fun _ => commandEffect_of_mem_rdstrCommands]
  apply List.ext_getElem
  · simp [rdstrCommands]
  · intro k hk _
    have hk' : k < 64 := by simpa [rdstrCommands] using hk
    simp [rdstrCommands, commandEffect, hhexv, CoreState.hexAt, readAt, Nat.mod_eq_of_lt hk']

end Sys2Proof.Machine
end

section
/-! FINAL after the bytes of a message (40_padding.md R85, R86): the blocks it processes are the last ones of the padded
message. -/

namespace Sys2Proof.Machine

/-- The bytes FINAL puts in front of the length field. -/
theorem CoreState.take_toList_markedBuffer (c : CoreState) {hi : Nat} (hn : c.n.toNat ≤ hi) (hhi : hi < 64) :
    (c.markedBuffer hi).toList.take (hi + 1) =
      c.buf.toList.take c.n.toNat ++ [0x80] ++ List.replicate (hi - c.n.toNat) 0 := by
  apply List.ext_getElem
  · simp
    omega
  · intro j hj _
    have hj' : j ≤ hi := by simp at hj; omega
    simp only [List.getElem_take, Vector.getElem_toList, getElem_markedBuffer, List.getElem_append, List.length_append,
      length_filled, List.length_singleton, List.getElem_replicate]
    rcases Nat.lt_trichotomy j c.n.toNat with hlt | heq | hgt
    · rw [if_pos hlt, dif_pos (by omega), dif_pos hlt]
    · rw [if_neg (by omega), if_pos heq, dif_pos (by omega), dif_neg (by omega)]
      simp [heq]
    · rw [if_neg (by omega), if_neg (by omega), if_pos hj', dif_neg (by omega)]

theorem take_toList_zeroFill (x : Block) {hi : Nat} (hhi : hi < 64) :
    (zeroFill x 0 hi).toList.take (hi + 1) = List.replicate (hi + 1) 0 := by
  apply List.ext_getElem
  · simp
    omega
  · intro j hj _
    have hj' : j ≤ hi := by simp at hj; omega
    simp [getElem_zeroFill, hj']

/-- The length field is the end of the block. -/
theorem toList_memWrite_lengthField (x : Block) (bytes : Vector Byte 8) :
    (memWrite x 56 bytes).toList = x.toList.take 56 ++ bytes.toList := by
  apply List.ext_getElem
  · simp
  · intro j hj _
    have hj' : j < 64 := by simpa using hj
    rw [Vector.getElem_toList, getElem_memWrite, List.getElem_append]
    by_cases hlow : j < 56
    · rw [dif_neg (by omega), dif_pos (by simp; omega), List.getElem_take, Vector.getElem_toList]
    · rw [dif_pos (by omega), dif_neg (by simp; omega), Vector.getElem_toList]
      simp

namespace CoreState.Absorbed

variable {c : CoreState} {m : List Byte}

/-- The message, the marker, zeros and the length field, from the first byte after the last whole block on. -/
theorem pad_eq (hc : c.Absorbed m) :
    pad m = (blocks m).flatMap Vector.toList ++ (c.buf.toList.take c.n.toNat ++ [0x80] ++
      List.replicate (padZeroCount m.length) 0 ++ (be64bytes c.len).toList) := by
  rw [pad_eq_padZeroCount, hc.len]
  nth_rw 1 [hc.bytes]
  simp only [List.append_assoc]

theorem blocks_pad_fits (hc : c.Absorbed m) (hn : c.n.toNat < 56) (le : Bool) :
    blocks (pad m) = blocks m ++ [(c.finalize le).buf] := by
  have hzeros : padZeroCount m.length = 55 - c.n.toNat := by
    rw [hc.n_eq] at hn ⊢
    exact padZeroCount_fits hn
  have hlast : (c.finalize le).buf.toList = c.buf.toList.take c.n.toNat ++ [0x80] ++
      List.replicate (55 - c.n.toNat) 0 ++ (be64bytes c.len).toList := by
    rw [finalize_buf, toList_memWrite_lengthField, c.padZeros_buf_fits hn,
      c.take_toList_markedBuffer (Nat.le_of_lt_succ hn) (by decide)]
  have hpad : pad m = (blocks m ++ [(c.finalize le).buf]).flatMap Vector.toList := by
    rw [hc.pad_eq, hzeros, ← hlast, List.flatMap_append, List.flatMap_singleton]
  rw [hpad, blocks_flatMap_toList]

theorem blocks_pad_overflows (hc : c.Absorbed m) (hn : 56 ≤ c.n.toNat) (le : Bool) :
    blocks (pad m) = blocks m ++ [c.markedBuffer 63, (c.finalize le).buf] := by
  have hzeros : padZeroCount m.length = 63 - c.n.toNat + 56 := by
    rw [hc.n_eq] at hn ⊢
    exact padZeroCount_overflows hn
  have hfirst : (c.markedBuffer 63).toList =
      c.buf.toList.take c.n.toNat ++ [0x80] ++ List.replicate (63 - c.n.toNat) 0 := by
    rw [← c.take_toList_markedBuffer (by omega) (by decide), List.take_of_length_le (by simp)]
  have hlast : (c.finalize le).buf.toList = List.replicate 56 0 ++ (be64bytes c.len).toList := by
    rw [finalize_buf, toList_memWrite_lengthField, c.padZeros_buf_overflows hn, take_toList_zeroFill _ (by decide)]
  have hpad : pad m = (blocks m ++ [c.markedBuffer 63, (c.finalize le).buf]).flatMap Vector.toList := by
    rw [hc.pad_eq, hzeros, List.replicate_add, List.flatMap_append, List.flatMap_cons, List.flatMap_singleton, hfirst,
      hlast]
    simp only [List.append_assoc]
  rw [hpad, blocks_flatMap_toList]

/-- FINAL leaves the chain of the padded message in H (40_padding.md R86). -/
theorem finalize_h (hc : c.Absorbed m) (le : Bool) :
    (c.finalize le).h = chain Config.initialHash (blocks (pad m)) := by
  rw [CoreState.finalize_h]
  by_cases hn : c.n.toNat < 56
  · rw [c.padZeros_h_fits hn, hc.blocks_pad_fits hn le, chain_append, ← hc.h]
    rfl
  · have hn' : 56 ≤ c.n.toNat := Nat.not_lt.mp hn
    rw [c.padZeros_h_overflows hn', hc.blocks_pad_overflows hn' le, chain_append, ← hc.h]
    rfl

theorem finalize_hex (hc : c.Absorbed m) (le : Bool) : (c.finalize le).hex = hashOf m le := by
  rw [CoreState.finalize_hex, hc.finalize_h, hashOf]

end CoreState.Absorbed

end Sys2Proof.Machine
end

section
/-! Message mode as a whole (40_padding.md R86): INIT, a PUSH for each byte, FINAL, and the string read back. -/

namespace Sys2Proof.Machine

@[simp] theorem pushedBytes_map_push (m : List Byte) : pushedBytes (m.map .push) = m := by
  induction m with
  | nil => rfl
  | cons b m ih => exact congrArg (b :: ·) ih

/-- While FIN = 0 every PUSH is answered `{0, 0x00}`. -/
theorem responsesTo_map_push (m : List Byte) {c : CoreState} (hfin : c.fin = false) :
    responsesTo (m.map .push) c = List.replicate m.length ⟨false, 0x00⟩ := by
  induction m generalizing c with
  | nil => rfl
  | cons b m ih =>
    rw [List.map_cons, responsesTo, commandEffect_push hfin, ih ((c.pushByte_fin b).trans hfin),
      List.length_cons, List.replicate_succ]

theorem absorbed_pushes (m : List Byte) (c : CoreState) :
    (coreAfter (m.map .push) c.startTransaction).Absorbed m := by
  have hpushes : ∀ i ∈ m.map Instr.push, i.isReading = true ∨ ∃ b, i = .push b := by
    intro i hi
    obtain ⟨b, -, rfl⟩ := List.mem_map.mp hi
    exact .inr ⟨b, rfl⟩
  simpa using c.absorbed_startTransaction.coreAfter hpushes

theorem coreAfter_hashCommands (m : List Byte) (le : Bool) (c : CoreState) :
    coreAfter (hashCommands m le) c = (coreAfter (m.map .push) c.startTransaction).finalize le := by
  simp only [hashCommands, List.cons_append, coreAfter, coreAfter_append, commandEffect_init,
    commandEffect_final (absorbed_pushes m c).fin]

theorem responsesTo_hashCommands (m : List Byte) (le : Bool) (c : CoreState) :
    responsesTo (hashCommands m le) c = List.replicate (m.length + 2) ⟨false, 0x00⟩ := by
  simp only [hashCommands, List.cons_append, responsesTo, responsesTo_append, commandEffect_init,
    responsesTo_map_push m c.startTransaction_fin, commandEffect_final (absorbed_pushes m c).fin]
  rw [List.replicate_succ, List.replicate_succ']

/-- Settles O48: FINAL leaves the hash of the pushed bytes in the string, and RDHEX reads it. -/
theorem messageModeComputesTheHash : Obligations.MessageModeComputesTheHash := by
  unfold Obligations.MessageModeComputesTheHash
  intro s m le
  refine ⟨_, runCommands_eq decode_encode _ s, ?_⟩
  have hc := absorbed_pushes m s.core
  simp only [coreAfter_append, responsesTo_append, coreAfter_hashCommands, responsesTo_hashCommands,
    coreAfter_rdstrCommands]
  refine ⟨?_, hc.finalize_h le, CoreState.finalize_hexv _ le, CoreState.finalize_fin _ le, CoreState.finalize_n _ le⟩
  rw [responsesTo_rdstrCommands (CoreState.finalize_hexv _ le), hc.finalize_hex, List.append_assoc]

end Sys2Proof.Machine
end

section
/-! Raw mode as a whole (40_padding.md R88, 70_reset_and_hazards.md R175): the blocks loaded and processed one after the
other, DIGEST, and the string read back. -/

namespace Sys2Proof.Machine

/-- The loads of a block leave that block in BUF, whatever stood there. -/
theorem loadedBuffer_of_loadsBlock {l : List (BitVec 6 × Byte)} {b : Block} (hl : loadsBlock l b) (x : Block) :
    loadedBuffer l x = b := by
  refine Vector.ext fun j hj => ?_
  have hread := readAt_loadedBuffer l x (BitVec.ofNat 6 j)
  rw [hl] at hread
  simpa [readAt, Nat.mod_eq_of_lt hj] using hread

/-- Whatever BUF held, it is the loaded block that is processed. -/
theorem coreAfter_rawCommands {l : List (BitVec 6 × Byte)} {b : Block} (hl : loadsBlock l b) (c : CoreState) :
    coreAfter (rawCommands l) c = (c.setBuf b).blockProcess := by
  rw [rawCommands, coreAfter_append, coreAfter_loadCommands, loadedBuffer_of_loadsBlock hl]
  rfl

theorem responsesTo_rawCommands (l : List (BitVec 6 × Byte)) (c : CoreState) :
    responsesTo (rawCommands l) c = List.replicate (rawCommands l).length ⟨false, 0x00⟩ := by
  rw [rawCommands, responsesTo_append, responsesTo_loadCommands, List.length_append, List.replicate_add, loadCommands,
    List.length_map]
  rfl

theorem responsesTo_flatMap_rawCommands (loads : List (List (BitVec 6 × Byte))) (c : CoreState) :
    responsesTo (loads.flatMap rawCommands) c =
      List.replicate (loads.flatMap rawCommands).length ⟨false, 0x00⟩ := by
  induction loads generalizing c with
  | nil => rfl
  | cons l loads ih =>
    rw [List.flatMap_cons, responsesTo_append, responsesTo_rawCommands, ih, List.length_append, List.replicate_add]

/-- The blocks are chained into H, and N, LEN and FIN stay. -/
theorem coreAfter_flatMap_rawCommands {loads : List (List (BitVec 6 × Byte))} {bs : List Block}
    (hloads : loadsBlocks loads bs) (c : CoreState) :
    (coreAfter (loads.flatMap rawCommands) c).h = chain c.h bs ∧
      (coreAfter (loads.flatMap rawCommands) c).n = c.n ∧ (coreAfter (loads.flatMap rawCommands) c).len = c.len ∧
      (coreAfter (loads.flatMap rawCommands) c).fin = c.fin := by
  induction loads generalizing bs c with
  | nil =>
    cases bs with
    | nil => exact ⟨rfl, rfl, rfl, rfl⟩
    | cons b bs => exact hloads.elim
  | cons l loads ih =>
    cases bs with
    | nil => exact hloads.elim
    | cons b bs =>
      obtain ⟨hl, hloads⟩ := hloads
      rw [List.flatMap_cons, coreAfter_append, coreAfter_rawCommands hl]
      simpa [chain] using ih hloads (c.setBuf b).blockProcess

/-- Settles O49: the loaded blocks are chained into H from its initial value, DIGEST encodes it, and RDHEX reads it. -/
theorem rawModeComputesTheHash : Obligations.RawModeComputesTheHash := by
  unfold Obligations.RawModeComputesTheHash
  intro s m le loads hloads
  refine ⟨_, runCommands_eq decode_encode _ s, ?_⟩
  obtain ⟨hh, hn, hlen, hfin⟩ := coreAfter_flatMap_rawCommands hloads s.core.startTransaction
  simp only [List.cons_append, coreAfter, coreAfter_append, responsesTo, responsesTo_append, commandEffect_init,
    commandEffect_digest, responsesTo_flatMap_rawCommands, coreAfter_rdstrCommands]
  refine ⟨?_, by rw [CoreState.digestOp_n, hn, CoreState.startTransaction_n],
    by rw [CoreState.digestOp_len, hlen, CoreState.startTransaction_len],
    by rw [CoreState.digestOp_fin, hfin, CoreState.startTransaction_fin]⟩
  rw [responsesTo_rdstrCommands (CoreState.digestOp_hexv _ le), CoreState.digestOp_hex, hh,
    CoreState.startTransaction_h, hashOf, List.replicate_succ, List.replicate_succ']
  simp only [List.append_assoc, List.cons_append, List.nil_append]

end Sys2Proof.Machine
end

section
/-! The small sigmas on bits (41_schedule.md R91): two rotations, which wrap, and a shift, which fills with zeros. -/

namespace Sys2Proof.Machine

/-- The top `n` bits of a logical right shift are zero (41_schedule.md R91). -/
theorem getLsbD_ushiftRight_word (x : Word) (n i : Nat) :
    (x >>> n).getLsbD i = (decide (i < 32 - n) && x.getLsbD (i + n)) := by
  rw [BitVec.getLsbD_ushiftRight, Nat.add_comm]
  by_cases hlow : i < 32 - n
  · simp [hlow]
  · simp [hlow, BitVec.getLsbD_of_ge x (i + n) (by omega)]

theorem getLsbD_rotr_xor_rotr_xor_shift (x : Word) {r r' n i : Nat} (hr : r < 32) (hr' : r' < 32) (hi : i < 32) :
    (rotr x r ^^^ rotr x r' ^^^ x >>> n).getLsbD i =
      ((x.getLsbD ((i + r) % 32) ^^ x.getLsbD ((i + r') % 32)) ^^ (decide (i < 32 - n) && x.getLsbD (i + n))) := by
  rw [BitVec.getLsbD_xor, BitVec.getLsbD_xor, getLsbD_rotr x hr hi, getLsbD_rotr x hr' hi, getLsbD_ushiftRight_word]

/-- Settles O25, from the three terms of each, with the amounts of R91. -/
theorem smallSigmaBits : Obligations.SmallSigmaBits := fun x _ hi =>
  ⟨getLsbD_rotr_xor_rotr_xor_shift x (by decide) (by decide) hi,
    getLsbD_rotr_xor_rotr_xor_shift x (by decide) (by decide) hi⟩

end Sys2Proof.Machine
end

section
/-! A loop that writes the words of a schedule one after the other, as SchedLoad and SchedExpand do (41_schedule.md R92,
R93): once written, a word stays, so the finished schedule shows what each pass read and wrote. -/

namespace Sys2Proof.Machine

section writingLoop

variable {m start : Nat} {f : Schedule → Fin m → Schedule}
  (hkeep : ∀ (u : Schedule) (k : Fin m) (i : Nat) (_ : i < 64), i ≠ start + k.val → (f u k)[i] = u[i])
include hkeep

/-- The loop passes through schedules `v 0, ..., v m`, and from `v k` to `v l` only the words from `start + k` up to
`start + l` are written. -/
theorem exists_trace_of_writing (w : Schedule) :
    ∃ v : Nat → Schedule, v 0 = w ∧ v m = (List.finRange m).foldl f w ∧ (∀ k : Fin m, v (k.val + 1) = f (v k.val) k) ∧
      ∀ k l : Nat, k ≤ l → l ≤ m → ∀ (i : Nat) (_ : i < 64), i < start + k ∨ start + l ≤ i → (v l)[i] = (v k)[i] := by
  obtain ⟨v, hfirst, hpass, hlast⟩ := foldl_trace f w (List.finRange m)
  rw [List.length_finRange] at hlast
  have hstep : ∀ k : Fin m, v (k.val + 1) = f (v k.val) k := fun k => by simpa using hpass k.val (by simp)
  refine ⟨v, hfirst, hlast.symm, hstep, fun k l hkl => ?_⟩
  induction l, hkl using Nat.le_induction with
  | base => exact fun _ _ _ _ => rfl
  | succ l _ ih =>
    intro hl i hi houtside
    rw [hstep ⟨l, hl⟩, hkeep _ _ i hi (by dsimp only; omega), ih (by omega) i hi (by omega)]

/-- The words outside the loop's range stay. -/
theorem getElem_foldl_of_outside (w : Schedule) {i : Nat} (hi : i < 64) (houtside : i < start ∨ start + m ≤ i) :
    ((List.finRange m).foldl f w)[i] = w[i] := by
  obtain ⟨v, rfl, hlast, -, hstay⟩ := exists_trace_of_writing hkeep w
  rw [← hlast]
  exact hstay 0 m (Nat.zero_le m) le_rfl i hi houtside

/-- The word of a pass is the one it makes of a schedule that agrees with the finished one below that word. -/
theorem getElem_foldl_of_pass (w : Schedule) (k : Fin m) (hk : start + k.val < 64) :
    ∃ u : Schedule, AgreeBelow (start + k.val) ((List.finRange m).foldl f w) u ∧
      ((List.finRange m).foldl f w)[start + k.val] = (f u k)[start + k.val] := by
  obtain ⟨v, -, hlast, hstep, hstay⟩ := exists_trace_of_writing hkeep w
  rw [← hlast]
  refine ⟨v k.val, fun i hi hik => hstay k.val m k.isLt.le le_rfl i hi (.inl hik), ?_⟩
  rw [← hstep]
  exact hstay (k.val + 1) m k.isLt le_rfl _ hk (.inl (by omega))

end writingLoop

end Sys2Proof.Machine
end

section
/-! The words SchedLoad writes (41_schedule.md R92): four bytes of the block each, most significant first. -/

namespace Sys2Proof.Machine

/-- One pass of SchedLoad (41_schedule.md R92). -/
def schedLoadStep (b : Block) (w : Schedule) (k : Fin 16) : Schedule :=
  w.set k.val (memRead4 b (4 * k.val) (by omega))

theorem schedLoad_eq_foldl_schedLoadStep (b : Block) (w : Schedule) :
    schedLoad b w = (List.finRange 16).foldl (schedLoadStep b) w := rfl

theorem getElem_schedLoadStep_of_ne (b : Block) (u : Schedule) (k : Fin 16) (i : Nat) (hi : i < 64)
    (hne : i ≠ 0 + k.val) : (schedLoadStep b u k)[i] = u[i] :=
  Vector.getElem_set_ne (by omega) hi (by omega)

theorem getElem_schedLoad (b : Block) (w : Schedule) {j : Nat} (hj : j < 16) :
    (schedLoad b w)[j] = memRead4 b (4 * j) (by omega) := by
  obtain ⟨u, -, hword⟩ := getElem_foldl_of_pass (getElem_schedLoadStep_of_ne b) w ⟨j, hj⟩ (by dsimp only; omega)
  simpa only [Nat.zero_add, schedLoad_eq_foldl_schedLoadStep, schedLoadStep, Vector.getElem_set_self] using hword

theorem getElem_schedLoad_of_le (b : Block) (w : Schedule) {i : Nat} (hi : i < 64) (hi16 : 16 ≤ i) :
    (schedLoad b w)[i] = w[i] :=
  getElem_foldl_of_outside (getElem_schedLoadStep_of_ne b) w hi (.inr (by omega))

/-- Settles O29: each word is read from the block as four bytes, and their big-endian value is the sum of R11. -/
theorem scheduleLoadsBigEndian : Obligations.ScheduleLoadsBigEndian := by
  unfold Obligations.ScheduleLoadsBigEndian
  refine ⟨fun b w => ⟨fun j hj => ?_, fun i hi hi16 => getElem_schedLoad_of_le b w hi hi16⟩, fun c => rfl⟩
  rw [getElem_schedLoad b w hj, memRead4, be32_toNat]

end Sys2Proof.Machine
end

section
/-! The words SchedExpand writes (41_schedule.md R93): each reads words below it only, which are finished by then. -/

namespace Sys2Proof.Machine

theorem getElem_schedStep_of_ne (u : Schedule) (k : Fin 48) (i : Nat) (hi : i < 64) (hne : i ≠ 16 + k.val) :
    (schedStep u k)[i] = u[i] :=
  Vector.getElem_set_ne (by omega) hi hne.symm

theorem getElem_schedExpand_of_lt (w : Schedule) {i : Nat} (hi : i < 16) : (schedExpand w)[i] = w[i] :=
  getElem_foldl_of_outside getElem_schedStep_of_ne w (by omega) (.inl hi)

/-- A pass would write the same word again into the finished schedule. -/
theorem getElem_schedExpand_eq_schedStep (w : Schedule) (k : Fin 48) :
    (schedExpand w)[16 + k.val] = (schedStep (schedExpand w) k)[16 + k.val] := by
  obtain ⟨u, hagree, hword⟩ := getElem_foldl_of_pass getElem_schedStep_of_ne w k (by omega)
  rw [← schedExpand_eq_foldl] at hagree hword
  rw [hword, hagree.schedStep (16 + k.val) (by omega) (Nat.lt_succ_self _)]

/-- Settles O30: a word above the first 16 is the one its pass makes of the finished schedule. -/
theorem scheduleExpandsByRecurrence : Obligations.ScheduleExpandsByRecurrence := by
  unfold Obligations.ScheduleExpandsByRecurrence
  refine ⟨fun w i hi => ⟨fun hlow => getElem_schedExpand_of_lt w hlow, fun hhigh => ?_⟩, fun c => rfl⟩
  obtain ⟨k, rfl⟩ := Nat.exists_eq_add_of_le hhigh
  calc (schedExpand w)[16 + k]
      = (schedStep (schedExpand w) ⟨k, by omega⟩)[16 + k] := getElem_schedExpand_eq_schedStep w ⟨k, by omega⟩
    _ = _ := Vector.getElem_set_self _

/-- Settles O31, as both schedules are written from the block alone. -/
theorem scheduleDependsOnItsBlockOnly : Obligations.ScheduleDependsOnItsBlockOnly := schedExpand_schedLoad

end Sys2Proof.Machine
end

section
/-! LDB (41_schedule.md R96): one byte of BUF, and its place in the schedule of the next BlockProcess. -/

namespace Sys2Proof.Machine

theorem commandEffect_ldb (i : BitVec 6) (b : Byte) (c : CoreState) :
    commandEffect (.ldb i b) c = (c.setBuf (writeAt c.buf i b), ⟨false, 0x00⟩) := by
  rw [commandEffect, CoreState.loadByte_eq]

/-- Byte `k` of a big-endian word in memory is the one at offset `k` (00_scope.md R10, R13). -/
theorem byteOf_memRead4 (x : Block) {i k : Nat} (hi : i + 3 < 64) (hk : k < 4) :
    byteOf (memRead4 x i hi) k = x[i + k] := by
  apply BitVec.eq_of_toNat_eq
  rw [byteOf, memRead4, BitVec.extractLsb'_toNat, be32_toNat, Nat.shiftRight_eq_div_pow]
  interval_cases k
  · simp only [Nat.add_zero]
    omega
  all_goals omega

/-- Byte `i` of a block is byte `i mod 4` of word `i / 4` of its schedule (41_schedule.md R96, corner case 4). -/
theorem byteOf_sched (x : Block) {i : Nat} (hi : i < 64) : byteOf (sched x)[i / 4] (i % 4) = x[i] := by
  rw [sched, getElem_schedExpand_of_lt _ (by omega), getElem_schedLoad _ _ (by omega), byteOf_memRead4 _ _ (by omega)]
  simp only [Nat.div_add_mod]

/-- Settles O20: the effect is the write to BUF, and the schedule of the next block shows the byte written. -/
theorem ldbLoadsOneByte : Obligations.LdbLoadsOneByte := by
  unfold Obligations.LdbLoadsOneByte
  intro i b
  refine ⟨encode_ldb_toNat i b, fun s => ⟨_, by rw [exec_eq_commandEffect, commandEffect_ldb], ?_⟩⟩
  have hword : i.toNat / 4 < 64 := by omega
  have hbyte : byteOf (sched (writeAt s.core.buf i b))[i.toNat / 4] (i.toNat % 4) = b := by
    rw [byteOf_sched _ i.isLt, getElem_writeAt, if_pos rfl]
  simpa [byteOf, getElem_writeAt, Vector.getD, hword] using hbyte

end Sys2Proof.Machine
end

section
/-! The round constants (42_compression.md R101). -/

namespace Sys2Proof.Machine

/-- Settles O51: the machine's table is the spec's, value by value. -/
theorem roundConstantsHaveTheirValues : Obligations.RoundConstantsHaveTheirValues := rfl

end Sys2Proof.Machine
end

section
/-! The functions of a round on bits (42_compression.md R102). -/

namespace Sys2Proof.Machine

theorem getLsbD_rotr_xor_rotr_xor_rotr (x : Word) {r r' r'' i : Nat} (hr : r < 32) (hr' : r' < 32) (hr'' : r'' < 32)
    (hi : i < 32) :
    (rotr x r ^^^ rotr x r' ^^^ rotr x r'').getLsbD i =
      ((x.getLsbD ((i + r) % 32) ^^ x.getLsbD ((i + r') % 32)) ^^ x.getLsbD ((i + r'') % 32)) := by
  rw [BitVec.getLsbD_xor, BitVec.getLsbD_xor, getLsbD_rotr x hr hi, getLsbD_rotr x hr' hi, getLsbD_rotr x hr'' hi]

/-- A bit of x switches one of the two terms of Ch off. -/
theorem getLsbD_ch (x y z : Word) {i : Nat} (hi : i < 32) :
    (ch x y z).getLsbD i = if x.getLsbD i then y.getLsbD i else z.getLsbD i := by
  rw [ch, BitVec.getLsbD_xor, BitVec.getLsbD_and, BitVec.getLsbD_and, BitVec.getLsbD_not]
  cases x.getLsbD i <;> simp [hi]

/-- The exclusive or of the three pairwise products of bits is their majority. -/
theorem xor_and_eq_majority :
    ∀ p q r : Bool, (((p && q) ^^ (p && r)) ^^ (q && r)) = decide (2 ≤ p.toNat + q.toNat + r.toNat) := by decide

theorem getLsbD_maj (x y z : Word) (i : Nat) :
    (maj x y z).getLsbD i = decide (2 ≤ (x.getLsbD i).toNat + (y.getLsbD i).toNat + (z.getLsbD i).toNat) := by
  rw [maj, BitVec.getLsbD_xor, BitVec.getLsbD_xor, BitVec.getLsbD_and, BitVec.getLsbD_and, BitVec.getLsbD_and,
    xor_and_eq_majority]

/-- Settles O26, from the three rotations of each big sigma, with the amounts of R102, and the bits of Ch and Maj. -/
theorem roundFunctionBits : Obligations.RoundFunctionBits := fun x y z i hi =>
  ⟨getLsbD_rotr_xor_rotr_xor_rotr x (by decide) (by decide) (by decide) hi,
    getLsbD_rotr_xor_rotr_xor_rotr x (by decide) (by decide) (by decide) hi,
    getLsbD_ch x y z hi, getLsbD_maj x y z i⟩

end Sys2Proof.Machine
end

section
/-! One round (42_compression.md R103). T1 and T2 are words of their own, made of the old variables, so the order in which
the variables are assigned does not matter. -/

namespace Sys2Proof.Machine

/-- T1 of a round (42_compression.md R103). -/
def Vars.t1 (v : Vars) (k w : Word) : Word := v.h + bsig1 v.e + ch v.e v.f v.g + k + w

/-- T2 of a round (42_compression.md R103). -/
def Vars.t2 (v : Vars) : Word := bsig0 v.a + maj v.a v.b v.c

theorem oneRound_eq (v : Vars) (k w : Word) :
    oneRound v k w =
      { a := v.t1 k w + v.t2, b := v.a, c := v.b, d := v.c, e := v.d + v.t1 k w, f := v.e, g := v.f, h := v.g } := rfl

/-- The four additions of T1 wrap modulo 2^32 each, and so does their sum. -/
theorem Vars.t1_toNat (v : Vars) (k w : Word) :
    (v.t1 k w).toNat =
      (v.h.toNat + (bsig1 v.e).toNat + (ch v.e v.f v.g).toNat + k.toNat + w.toNat) % 2 ^ 32 := by
  simp only [t1, BitVec.toNat_add, Nat.mod_add_mod]

theorem Vars.t2_toNat (v : Vars) : v.t2.toNat = ((bsig0 v.a).toNat + (maj v.a v.b v.c).toNat) % 2 ^ 32 :=
  BitVec.toNat_add _ _

/-- Settles O27: the new variables are those of `oneRound_eq`, and the sequential assignments arrive at them too. -/
theorem roundReplacesTheVariables : Obligations.RoundReplacesTheVariables := by
  unfold Obligations.RoundReplacesTheVariables
  intro v k w
  rw [oneRound_eq]
  exact ⟨v.t1 k w, v.t2, v.t1_toNat k w, v.t2_toNat, BitVec.toNat_add _ _, BitVec.toNat_add _ _,
    rfl, rfl, rfl, rfl, rfl, rfl, rfl⟩

end Sys2Proof.Machine
end

section
/-! The 64 rounds (42_compression.md R104) as the values the loop passes through. -/

namespace Sys2Proof.Machine

theorem exists_trace_of_rounds (hin : HashState) (w : Schedule) :
    ∃ v : Nat → Vars, v 0 = Vars.ofHash hin ∧
      (∀ (i : Nat) (_ : i < 64), v (i + 1) = oneRound (v i) Config.roundConstants[i] w[i]) ∧ rounds hin w = v 64 := by
  rw [rounds_eq_foldl]
  obtain ⟨v, hfirst, hpass, hlast⟩ :=
    foldl_trace (fun v (i : Fin 64) => oneRound v Config.roundConstants[i.val] w[i.val]) (Vars.ofHash hin)
      (List.finRange 64)
  rw [List.length_finRange] at hlast
  refine ⟨v, hfirst, fun i hi => ?_, hlast⟩
  have hlen : i < (List.finRange 64).length := by rwa [List.length_finRange]
  simpa only [List.getElem_finRange, Fin.cast_mk] using hpass i hlen

/-- Settles O28: the trace of the loop, which starts at the words of H; the operation writes a..h. -/
theorem roundsRunInOrder : Obligations.RoundsRunInOrder := ⟨exists_trace_of_rounds, fun _ => rfl⟩

end Sys2Proof.Machine
end

section
/-! The net effect of BlockProcess (42_compression.md R106) on the whole core state, and its command BLOCK (R107). -/

namespace Sys2Proof.Machine

theorem CoreState.eq_of_fields {c d : CoreState} (hh : c.h = d.h) (hvars : c.vars = d.vars) (hw : c.w = d.w)
    (hbuf : c.buf = d.buf) (hn : c.n = d.n) (hlen : c.len = d.len) (hdg : c.dg = d.dg) (hhex : c.hex = d.hex)
    (hhexv : c.hexv = d.hexv) (hfin : c.fin = d.fin) : c = d := by
  cases c
  cases d
  simp_all

/-- H, W and a..h come from the schedule of the block, whatever W held (41_schedule.md R94); the rest stays. -/
theorem CoreState.blockProcess_eq (c : CoreState) :
    c.blockProcess = { c with h := compress c.h c.buf, w := sched c.buf, vars := rounds c.h (sched c.buf) } := by
  refine CoreState.eq_of_fields ?hash ?vars ?schedule c.blockProcess_buf c.blockProcess_n c.blockProcess_len
    c.blockProcess_dg c.blockProcess_hex c.blockProcess_hexv c.blockProcess_fin
  case hash => rw [blockProcess_h, schedExpand_schedLoad, accum_rounds_sched]
  case vars => rw [blockProcess_vars, schedExpand_schedLoad]
  case schedule => rw [blockProcess_w, schedExpand_schedLoad]

/-- Settles O32: the equation of `CoreState.blockProcess_eq`, which was put together field by field. -/
theorem blockProcessNetEffect : Obligations.BlockProcessNetEffect := CoreState.blockProcess_eq

theorem commandEffect_block (c : CoreState) : commandEffect .block c = (c.blockProcess, ⟨false, 0x00⟩) := rfl

/-- Settles O19: the effect of BLOCK is that of BlockProcess. -/
theorem blockProcessesTheBuffer : Obligations.BlockProcessesTheBuffer := by
  unfold Obligations.BlockProcessesTheBuffer
  refine ⟨BitVec.eq_of_toNat_eq encode_block_toNat, fun s =>
    ⟨_, by rw [exec_eq_commandEffect, commandEffect_block, CoreState.blockProcess_eq], ?_⟩⟩
  exact ⟨rfl, rfl, rfl, rfl, rfl, rfl, rfl, rfl, rfl, rfl, rfl, rfl⟩

end Sys2Proof.Machine
end

section
/-! The accumulate step (43_accumulate.md R117) and the chaining of blocks (R118). -/

namespace Sys2Proof.Machine

/-- Settles O33: each word of `accum` is a sum of words, and those wrap (00_scope.md R12). -/
theorem accumulateByPosition : Obligations.AccumulateByPosition := fun _ _ =>
  ⟨BitVec.toNat_add _ _, BitVec.toNat_add _ _, BitVec.toNat_add _ _, BitVec.toNat_add _ _, BitVec.toNat_add _ _,
    BitVec.toNat_add _ _, BitVec.toNat_add _ _, BitVec.toNat_add _ _, fun _ => rfl⟩

theorem chain_nil (hin : HashState) : chain hin [] = hin := rfl

theorem chain_cons (hin : HashState) (b : Block) (bs : List Block) : chain hin (b :: bs) = chain (compress hin b) bs := rfl

/-- Settles O34, by `chain_append`, whose induction is on the first list; one block is chained by compressing it. -/
theorem chainCarriesTheState : Obligations.ChainCarriesTheState := by
  unfold Obligations.ChainCarriesTheState
  intro hin xs ys
  refine ⟨chain_nil hin, chain_append hin xs ys, fun b => ?_⟩
  rw [chain_append, chain_cons, chain_nil]

end Sys2Proof.Machine
end

section
/-! INIT (43_accumulate.md R116): it keeps a core that already stands at the start of a transaction, and what the
commands that read the status and the string answer after it. -/

namespace Sys2Proof.Machine

theorem CoreState.startTransaction_eq_self {c : CoreState} (hh : c.h = Config.initialHash) (hn : c.n = 0)
    (hlen : c.len = 0) (hfin : c.fin = false) (hhexv : c.hexv = false) : c.startTransaction = c :=
  CoreState.eq_of_fields (c.startTransaction_h.trans hh.symm) c.startTransaction_vars c.startTransaction_w
    c.startTransaction_buf (c.startTransaction_n.trans hn.symm) (c.startTransaction_len.trans hlen.symm)
    c.startTransaction_dg c.startTransaction_hex (c.startTransaction_hexv.trans hhexv.symm)
    (c.startTransaction_fin.trans hfin.symm)

@[simp] theorem CoreState.startTransaction_startTransaction (c : CoreState) :
    c.startTransaction.startTransaction = c.startTransaction :=
  startTransaction_eq_self c.startTransaction_h c.startTransaction_n c.startTransaction_len c.startTransaction_fin
    c.startTransaction_hexv

@[simp] theorem CoreState.startTransaction_reset : CoreState.reset.startTransaction = CoreState.reset :=
  startTransaction_eq_self rfl rfl rfl rfl rfl

@[simp] theorem CoreState.startTransaction_status (c : CoreState) : c.startTransaction.status = 0x00 := by
  simp [CoreState.status]

theorem commandEffect_rdstat (c : CoreState) : commandEffect .rdstat c = (c, ⟨false, c.status⟩) := rfl

theorem commandEffect_rdhex_refused {c : CoreState} (hhexv : c.hexv = false) (i : BitVec 6) :
    commandEffect (.rdhex i) c = (c, ⟨true, 0x02⟩) := by simp [commandEffect, hhexv]

/-- Settles O16: the effect of INIT, and that of the command after it. -/
theorem initStartsATransaction : Obligations.InitStartsATransaction := by
  unfold Obligations.InitStartsATransaction
  refine ⟨BitVec.eq_of_toNat_eq encode_init_toNat, fun s => ?_, fun s hreset => ?_⟩
  · refine ⟨_, by rw [exec_eq_commandEffect, commandEffect_init], ?_⟩
    refine ⟨rfl, rfl, fun _ _ => rfl, rfl, rfl, rfl, rfl, rfl, rfl, rfl, rfl, rfl, ?again, ?status, fun i => ?string⟩
    case again => rw [exec_eq_commandEffect, commandEffect_init, CoreState.startTransaction_startTransaction]
    case status => rw [exec_eq_commandEffect, commandEffect_rdstat, CoreState.startTransaction_status]
    case string => rw [exec_eq_commandEffect, commandEffect_rdhex_refused s.core.startTransaction_hexv]
  · rw [exec_eq_commandEffect, commandEffect_init, hreset, CoreState.startTransaction_reset]

end Sys2Proof.Machine
end

section
/-! The writers of H (43_accumulate.md R120): what each command leaves in it, then what each move does. -/

namespace Sys2Proof.Machine

/-- A PUSH that changes H is the one that fills the buffer (40_padding.md R83). -/
theorem CoreState.n_eq_last_of_pushByte_h_ne {c : CoreState} {b : Byte} (h : (c.pushByte b).h ≠ c.h) : c.n = 63 := by
  by_contra hn
  exact h (by rw [c.pushByte_below b hn]; simp)

theorem CoreState.pushByte_h_last {c : CoreState} (hn : c.n = 63) (b : Byte) :
    (c.pushByte b).h = compress c.h (writeAt c.buf c.n b) := by
  obtain ⟨hprocessed, _, _⟩ := c.pushByte_processes_last b (c.n_eq_last_iff.mp hn)
  rw [hprocessed, CoreState.pushByte_buf]

/-- FINAL compresses one block, the one it leaves in BUF, or the filled one before it as well (40_padding.md R85). -/
theorem CoreState.finalize_h_by_blocks (c : CoreState) (le : Bool) :
    (c.finalize le).h =
      if c.n.toNat < 56 then compress c.h (c.finalize le).buf
      else compress (compress c.h (c.markedBuffer 63)) (c.finalize le).buf := by
  rw [c.finalize_h le]
  split
  case isTrue hn => rw [c.padZeros_h_fits hn]
  case isFalse hn => rw [c.padZeros_h_overflows (Nat.not_lt.mp hn)]

/-- NOP, DIGEST, RDHEX, RDSTAT, LDB and a refused command leave H, so the command is one of the other four. -/
theorem commandEffect_h_writers {i : Instr} {c : CoreState} (h : (commandEffect i c).1.h ≠ c.h) :
    (i = .init ∧ (commandEffect i c).1.h = Config.initialHash) ∨
    (i = .block ∧ (commandEffect i c).1.h = compress c.h c.buf) ∨
    (∃ b, i = .push b ∧ c.fin = false ∧ c.n = 63 ∧
      (commandEffect i c).1.h = compress c.h (writeAt c.buf c.n b)) ∨
    (∃ le, i = .final le ∧ c.fin = false ∧
      (commandEffect i c).1.h =
        if c.n.toNat < 56 then compress c.h (commandEffect i c).1.buf
        else compress (compress c.h (c.markedBuffer 63)) (commandEffect i c).1.buf) := by
  cases i with
  | init => exact .inl ⟨rfl, c.startTransaction_h⟩
  | block => exact .inr (.inl ⟨rfl, by rw [commandEffect_block, c.blockProcess_eq]⟩)
  | push b =>
    cases hfin : c.fin with
    | true => exact absurd (by rw [commandEffect_push_refused hfin]) h
    | false =>
      rw [commandEffect_push hfin] at h ⊢
      have hlast : c.n = 63 := CoreState.n_eq_last_of_pushByte_h_ne h
      exact .inr (.inr (.inl ⟨b, rfl, rfl, hlast, CoreState.pushByte_h_last hlast b⟩))
  | final le =>
    cases hfin : c.fin with
    | true => exact absurd (by rw [commandEffect_final_refused hfin]) h
    | false =>
      rw [commandEffect_final hfin]
      exact .inr (.inr (.inr ⟨le, rfl, rfl, c.finalize_h_by_blocks le⟩))
  | nop => exact absurd rfl h
  | digest le => exact absurd (c.digestOp_h le) h
  | rdhex k => exact absurd (by cases hhexv : c.hexv <;> simp [commandEffect, hhexv]) h
  | rdstat => exact absurd rfl h
  | ldb k b => exact absurd (by simp [commandEffect]) h

/-- Settles O44: the move that changes H is a reset, or a word that decodes to one of the commands that write it. -/
theorem hashStateWriters : Obligations.HashStateWriters := by
  unfold Obligations.HashStateWriters
  intro s t hstep hchange
  obtain ⟨_, hs⟩ | ⟨c, rest, hin, hs⟩ | ⟨rest, hin, hs⟩ | ⟨rest, _, hs⟩ := step_cases s
  case inl =>
    cases hs.symm.trans hstep
    exact absurd rfl hchange
  case inr.inl =>
    cases hc : decode c with
    | legal i =>
      rw [hs, acceptWord_legal hc, exec_eq_commandEffect] at hstep
      cases hstep
      exact .inr ⟨c, i, rest, hin, hc, commandEffect_h_writers hchange⟩
    | illegal why =>
      rw [hs, acceptWord_illegal hc] at hstep
      cases hstep
      exact absurd rfl hchange
  case inr.inr.inl =>
    cases hs.symm.trans hstep
    exact .inl ⟨rest, hin, rfl⟩
  case inr.inr.inr =>
    cases hs.symm.trans hstep
    exact absurd rfl hchange

end Sys2Proof.Machine
end

section
/-! SER (44_serialize_hex.md R126, R128): the bytes of one word of the digest, in both forms. -/

namespace Sys2Proof.Machine

/-- Word k is bytes 4k..4k+3 in both forms; the flag counts the bytes inside it from the other end. -/
theorem getElem_serialize_word (hs : HashState) (le : Bool) {k j : Nat} (hk : k < 8) (hj : j < 4) :
    (serialize hs le)[4 * k + j] = byteOf hs[k] (if le then 3 - j else j) := by
  have hword : (4 * k + j) / 4 = k := by omega
  have hbyte : (4 * k + j) % 4 = j := by omega
  simp only [getElem_serialize, hword, hbyte]

/-- Byte 3 - j of a word, counted from its most significant one (00_scope.md R10), is byte j from its low end. -/
theorem byteOf_sub (w : Word) {j : Nat} (hj : j < 4) : byteOf w (3 - j) = w.extractLsb' (8 * j) 8 := by
  have hlow : 24 - 8 * (3 - j) = 8 * j := by omega
  rw [byteOf, hlow]

/-- Settles O35: the bytes of word k, from its high end and from its low end. -/
theorem serializeOrdersBytes : Obligations.SerializeOrdersBytes := fun hs _ _ hk hj =>
  ⟨getElem_serialize_word hs false hk hj, (getElem_serialize_word hs true hk hj).trans (byteOf_sub _ hj)⟩

/-- Settles O36: both sides are byte 3 - j of word k. -/
theorem swapStaysWithinWords : Obligations.SwapStaysWithinWords := by
  unfold Obligations.SwapStaysWithinWords
  intro hs k j hk hj
  have hmirror : 3 - j < 4 := by omega
  exact (getElem_serialize_word hs true hk hj).trans (getElem_serialize_word hs false hk hmirror).symm

end Sys2Proof.Machine
end

section
/-! The hex encoder (44_serialize_hex.md R129, R130): the code of a digit, and the two digits of one byte. -/

namespace Sys2Proof.Machine

theorem hexDigit_toNat_of_le {n : BitVec 4} (hn : n.toNat ≤ 9) : (hexDigit n).toNat = 0x30 + n.toNat := by
  rw [hexDigit, if_pos hn]
  bv_omega

theorem hexDigit_toNat_of_ge {n : BitVec 4} (hn : 10 ≤ n.toNat) : (hexDigit n).toNat = 0x61 + (n.toNat - 10) := by
  rw [hexDigit, if_neg (Nat.not_le.mpr hn)]
  bv_omega

/-- Settles O37: the two ranges of digits, and the code of any digit. -/
theorem hexDigitsAreLowerCaseAscii : Obligations.HexDigitsAreLowerCaseAscii := fun n =>
  ⟨hexDigit_toNat_of_le, hexDigit_toNat_of_ge, isHexCode_hexDigit n⟩

/-- Character t of the pair of byte j: its high nibble when t is 0, its low nibble when t is 1. -/
theorem getElem_hexEnc_pair (d : Digest) {j t : Nat} (hj : j < 32) (ht : t < 2) :
    (hexEnc d)[2 * j + t] = hexDigit (d[j].extractLsb' (4 * (1 - t)) 4) := by
  have hbyte : (2 * j + t) / 2 = j := by omega
  simp only [getElem_hexEnc, hbyte]
  obtain rfl | rfl : t = 0 ∨ t = 1 := by omega
  · rw [if_pos (by omega)]
  · rw [if_neg (by omega)]

/-- Settles O38: the two characters of a pair. -/
theorem hexPairsHighNibbleFirst : Obligations.HexPairsHighNibbleFirst := fun d _ hj =>
  ⟨getElem_hexEnc_pair d hj Nat.zero_lt_two, getElem_hexEnc_pair d hj Nat.one_lt_two⟩

end Sys2Proof.Machine
end

section
/-! `Hash(M, le)` (44_serialize_hex.md R133): its two forms (R135) and its characters (R137). -/

namespace Sys2Proof.Machine

/-- Settles O39: the character stands in the pair of byte 4k + j, which the other form has at 4k + (3 - j). -/
theorem twoFormsOfOneDigest : Obligations.TwoFormsOfOneDigest := by
  unfold Obligations.TwoFormsOfOneDigest
  intro m k j t hk hj ht
  have hleft : 8 * k + 2 * j + t = 2 * (4 * k + j) + t := by omega
  have hright : 8 * k + 2 * (3 - j) + t = 2 * (4 * k + (3 - j)) + t := by omega
  simp only [hleft, hright, hashOf]
  rw [getElem_hexEnc_pair _ (by omega) ht, getElem_hexEnc_pair _ (by omega) ht, swapStaysWithinWords _ k j hk hj]

/-- Settles O40: an output string is made by the hex encoder, whatever the digest is. -/
theorem outputIsHexDigits : Obligations.OutputIsHexDigits := fun _ _ i hi => isHexCode_getElem_hexEnc _ i hi

end Sys2Proof.Machine
end

section
/-! The commands DIGEST and RDHEX (44_serialize_hex.md R134, R136), and how long the string they are about lasts. -/

namespace Sys2Proof.Machine

/-- Settles O21: the effect of DIGEST, field by field. -/
theorem digestEncodesTheHashState : Obligations.DigestEncodesTheHashState := by
  unfold Obligations.DigestEncodesTheHashState
  refine fun le => ⟨encode_digest_toNat le, fun s =>
    ⟨_, by rw [exec_eq_commandEffect, commandEffect_digest], ?_⟩⟩
  exact ⟨rfl, rfl, s.core.digestOp_dg le, s.core.digestOp_hex le, s.core.digestOp_hexv le, s.core.digestOp_h le,
    s.core.digestOp_vars le, s.core.digestOp_w le, s.core.digestOp_buf le, s.core.digestOp_n le,
    s.core.digestOp_len le, s.core.digestOp_fin le⟩

theorem commandEffect_rdhex {c : CoreState} (hhexv : c.hexv = true) (i : BitVec 6) :
    commandEffect (.rdhex i) c = (c, ⟨false, c.hexAt i⟩) := by simp [commandEffect, hhexv]

/-- RDHEX leaves the core in both of its cases. -/
@[simp] theorem commandEffect_rdhex_core (i : BitVec 6) (c : CoreState) : (commandEffect (.rdhex i) c).1 = c := by
  cases hhexv : c.hexv with
  | true => rw [commandEffect_rdhex hhexv]
  | false => rw [commandEffect_rdhex_refused hhexv]

theorem getElem?_hex (c : CoreState) (i : BitVec 6) : c.hex[i.toNat]? = some (c.hexAt i) :=
  Vector.getElem?_eq_getElem i.isLt

theorem isHexCode_hexAt {c : CoreState} (hc : c.Inv) (hhexv : c.hexv = true) (i : BitVec 6) :
    isHexCode (c.hexAt i) = true := hc.hexv_digits hhexv i.toNat i.isLt

/-- Of the commands INIT alone clears HEXV (10_state.md R24). -/
theorem commandEffect_keeps_hexv {i : Instr} {c : CoreState} (hhexv : c.hexv = true) (hinit : i ≠ .init) :
    (commandEffect i c).1.hexv = true := by
  cases i with
  | init => exact absurd rfl hinit
  | push b =>
    cases hfin : c.fin with
    | true => rw [commandEffect_push_refused hfin, hhexv]
    | false => rw [commandEffect_push hfin, c.pushByte_hexv, hhexv]
  | final le =>
    cases hfin : c.fin with
    | true => rw [commandEffect_final_refused hfin, hhexv]
    | false => rw [commandEffect_final hfin, c.finalize_hexv]
  | block => rw [commandEffect_block, c.blockProcess_hexv, hhexv]
  | digest le => rw [commandEffect_digest, c.digestOp_hexv]
  | rdhex k => rw [commandEffect_rdhex_core, hhexv]
  | ldb k b => rw [commandEffect_ldb, CoreState.setBuf_hexv, hhexv]
  | nop => exact hhexv
  | rdstat => exact hhexv

/-- DIGEST and FINAL alone write HEX; INIT keeps it too, though it is no longer valid then (43_accumulate.md R116). -/
theorem commandEffect_keeps_hex {i : Instr} {c : CoreState} (hdigest : ∀ le, i ≠ .digest le)
    (hfinal : ∀ le, i ≠ .final le) : (commandEffect i c).1.hex = c.hex := by
  cases i with
  | digest le => exact absurd rfl (hdigest le)
  | final le => exact absurd rfl (hfinal le)
  | push b =>
    cases hfin : c.fin with
    | true => rw [commandEffect_push_refused hfin]
    | false => rw [commandEffect_push hfin, c.pushByte_hex]
  | init => rw [commandEffect_init, c.startTransaction_hex]
  | block => rw [commandEffect_block, c.blockProcess_hex]
  | rdhex k => rw [commandEffect_rdhex_core]
  | ldb k b => rw [commandEffect_ldb, CoreState.setBuf_hex]
  | nop => rfl
  | rdstat => rfl

/-- Settles O22: the two cases of RDHEX, and what the commands leave of HEXV and HEX. -/
theorem rdhexReturnsACharacter : Obligations.RdhexReturnsACharacter := by
  unfold Obligations.RdhexReturnsACharacter
  refine fun i => ⟨encode_rdhex_toNat i, fun s hhexv => ?valid, fun s hhexv => ?refused, fun s j hhexv hinit => ?lasts⟩
  case valid =>
    refine ⟨_, getElem?_hex s.core i, ?_, fun hinv => isHexCode_hexAt hinv hhexv i⟩
    rw [exec_eq_commandEffect, commandEffect_rdhex hhexv]
  case refused => rw [exec_eq_commandEffect, commandEffect_rdhex_refused hhexv]
  case lasts =>
    exact ⟨_, exec_eq_commandEffect j s, commandEffect_keeps_hexv hhexv hinit, commandEffect_keeps_hex⟩

end Sys2Proof.Machine
end

section
/-! The system commands NOP and RDSTAT (45_system.md R141, R142), and the status byte (10_state.md R25). -/

namespace Sys2Proof.Machine

theorem commandEffect_nop (c : CoreState) : commandEffect .nop c = (c, ⟨false, 0x00⟩) := rfl

/-- Settles O15: the word of NOP, and its effect on the core. -/
theorem nopDoesNothing : Obligations.NopDoesNothing := by
  unfold Obligations.NopDoesNothing
  refine ⟨BitVec.eq_of_toNat_eq encode_nop_toNat, fun s => ?_⟩
  rw [exec_eq_commandEffect, commandEffect_nop]

/-- The two flags stand above the six bits of N, so putting N below them adds its value. -/
theorem CoreState.status_toNat (c : CoreState) :
    c.status.toNat = c.hexv.toNat * 128 + c.fin.toNat * 64 + c.n.toNat := by
  have hflags : ((BitVec.ofBool c.hexv).setWidth 8 <<< 7 ||| (BitVec.ofBool c.fin).setWidth 8 <<< 6).toNat =
      2 ^ 6 * (2 * c.hexv.toNat + c.fin.toNat) := by
    cases c.hexv <;> cases c.fin <;> rfl
  rw [CoreState.status, BitVec.toNat_or, hflags, BitVec.toNat_setWidth_of_le (by decide),
    ← Nat.two_pow_add_eq_or_of_lt c.n.isLt]
  omega

theorem CoreState.getLsbD_status_six (c : CoreState) : c.status.getLsbD 6 = c.fin := by
  simp [CoreState.status]

/-- After FINAL the string is valid and the buffer is empty (10_state.md R36 item 3). -/
theorem CoreState.Inv.status_of_fin {c : CoreState} (hc : c.Inv) (hfin : c.fin = true) : c.status = 0xC0 := by
  apply BitVec.eq_of_toNat_eq
  rw [c.status_toNat, hc.fin_hexv hfin, hfin, hc.fin_empty hfin]
  rfl

/-- Settles O23: the effect of RDSTAT is the status byte, whose value and bit 6 are read off its fields. -/
theorem rdstatReturnsTheStatus : Obligations.RdstatReturnsTheStatus := by
  unfold Obligations.RdstatReturnsTheStatus
  refine ⟨BitVec.eq_of_toNat_eq encode_rdstat_toNat, fun s => ⟨s.core.status, ?_, s.core.status_toNat, ?_⟩⟩
  · rw [exec_eq_commandEffect, commandEffect_rdstat]
  · intro hinv hbit
    exact hinv.status_of_fin (s.core.getLsbD_status_six.symm.trans hbit)

end Sys2Proof.Machine
end

section
/-! What the host sees of a step (60_exceptions.md): a host that does nothing (R163), no step that stops the machine
(R162), and the one response to each word, with the table of errors (R152). -/

namespace Sys2Proof.Machine

section eachMove

variable {s : State} {rest : List HostAction}

theorem step_of_no_move (hin : s.inputs = []) : step s = .next s := by
  obtain ⟨core, inputs, responses⟩ := s
  obtain rfl : inputs = [] := hin
  simp [step_eq_moveEffect]

theorem step_of_idle (hin : s.inputs = .idle :: rest) : step s = .next { s with inputs := rest } := by
  simp [step_eq_moveEffect, hin]

theorem step_of_legal {c : BitVec 16} {i : Instr} (hin : s.inputs = .command c :: rest) (hdecode : decode c = .legal i) :
    step s = .next { core := (commandEffect i s.core).1, inputs := rest,
                     responses := s.responses ++ [(commandEffect i s.core).2] } := by
  rw [step_of_command hin, acceptWord_legal hdecode, exec_eq_commandEffect]

theorem step_of_illegal {c : BitVec 16} {why : Reserved} (hin : s.inputs = .command c :: rest)
    (hdecode : decode c = .illegal why) :
    step s = .next { core := s.core, inputs := rest, responses := s.responses ++ [⟨true, 0x01⟩] } :=
  reservedWordsAreRefused.2 c why s rest hdecode hin

end eachMove

/-- Of the commands that can be answered with an error, RDHEX never changes the core, and PUSH and FINAL do not when
they are refused; the other six are always answered without one. -/
theorem commandEffect_core_of_err {i : Instr} {c : CoreState} (herr : (commandEffect i c).2.err = true) :
    (commandEffect i c).1 = c := by
  cases i with
  | rdhex k => rw [commandEffect_rdhex_core]
  | push b =>
    cases hfin : c.fin with
    | true => rw [commandEffect_push_refused hfin]
    | false => simp [commandEffect_push hfin] at herr
  | final le =>
    cases hfin : c.fin with
    | true => rw [commandEffect_final_refused hfin]
    | false => simp [commandEffect_final hfin] at herr
  | nop => rfl
  | rdstat => rfl
  | init => simp [commandEffect_init] at herr
  | block => simp [commandEffect_block] at herr
  | digest le => simp [commandEffect_digest] at herr
  | ldb k b => simp [commandEffect_ldb] at herr

/-- Settles O12: no move is left, or the move is idle. -/
theorem idleHostChangesNothing : Obligations.IdleHostChangesNothing := by
  unfold Obligations.IdleHostChangesNothing
  exact ⟨fun _ => step_of_no_move, fun _ _ => step_of_idle⟩

/-- Settles O13: every step is the effect of its move. -/
theorem everyMoveHasANextState : Obligations.EveryMoveHasANextState := by
  unfold Obligations.EveryMoveHasANextState
  exact fun s => ⟨_, step_eq_moveEffect s⟩

/-- Settles O14: a reserved word is refused, and the response of each command is that of its effect, split on FIN for
PUSH and FINAL and on HEXV for RDHEX. -/
theorem everyCommandIsAnsweredOnce : Obligations.EveryCommandIsAnsweredOnce := by
  unfold Obligations.EveryCommandIsAnsweredOnce
  intro s c rest hin
  cases hdecode : decode c with
  | illegal why => exact ⟨_, _, step_of_illegal hin hdecode, rfl, rfl, fun _ => rfl, rfl⟩
  | legal i =>
    refine ⟨_, _, step_of_legal hin hdecode, rfl, rfl, commandEffect_core_of_err, ?_⟩
    cases i with
    | rdhex k =>
      cases hhexv : s.core.hexv with
      | true => simp [commandEffect_rdhex hhexv]
      | false => simp [commandEffect_rdhex_refused hhexv]
    | push b =>
      cases hfin : s.core.fin with
      | true => simp [commandEffect_push_refused hfin]
      | false => simp [commandEffect_push hfin]
    | final le =>
      cases hfin : s.core.fin with
      | true => simp [commandEffect_final_refused hfin]
      | false => simp [commandEffect_final hfin]
    | nop | init | block | digest | rdstat | ldb => rfl

end Sys2Proof.Machine
end

section
/-! Two cores in the middle of the same transaction (70_reset_and_hazards.md R176). What the transaction has not written
since its INIT may differ: BUF from N on, HEX while it is not valid, and the hidden registers. The commands of message
mode answer two such cores alike and leave them so: PUSH and FINAL read BUF below N only, and RDHEX reads HEX only when
it is valid. -/

namespace Sys2Proof.Machine

/-- Two core states that agree in all that a command of message mode can read (70_reset_and_hazards.md R174). -/
structure CoreState.SameTransaction (c d : CoreState) : Prop where
  h      : c.h = d.h
  n      : c.n = d.n
  len    : c.len = d.len
  hexv   : c.hexv = d.hexv
  fin    : c.fin = d.fin
  /-- The bytes of the block that is being filled. -/
  filled : ∀ (j : Nat) (_ : j < 64), j < d.n.toNat → c.buf[j] = d.buf[j]
  /-- The string, once there is one. -/
  string : d.hexv = true → c.hex = d.hex

namespace CoreState.SameTransaction

variable {c d : CoreState}

theorem startTransaction (c d : CoreState) : c.startTransaction.SameTransaction d.startTransaction := by
  constructor <;> simp

theorem getElem_writeAt_n (hcd : c.SameTransaction d) (b : Byte) {j : Nat} (hj : j < 64) (hjn : j ≤ d.n.toNat) :
    (writeAt c.buf c.n b)[j] = (writeAt d.buf d.n b)[j] := by
  rw [getElem_writeAt, getElem_writeAt, hcd.n]
  split
  · rfl
  · exact hcd.filled j hj (by omega)

theorem digestOp (hcd : c.SameTransaction d) (le : Bool) : (c.digestOp le).SameTransaction (d.digestOp le) := by
  constructor
  case filled => simpa using hcd.filled
  all_goals simp [hcd.h, hcd.n, hcd.len, hcd.fin]

/-- At N = 63 the block that is processed is all filled. -/
theorem pushByte_h (hcd : c.SameTransaction d) (b : Byte) : (c.pushByte b).h = (d.pushByte b).h := by
  by_cases hn : d.n.toNat < 63
  · obtain ⟨hc, -, -⟩ := c.pushByte_frame_below b (hcd.n ▸ hn)
    obtain ⟨hd, -, -⟩ := d.pushByte_frame_below b hn
    rw [hc, hd, hcd.h]
  · have hlast : d.n.toNat = 63 := by omega
    obtain ⟨hc, -, -⟩ := c.pushByte_processes_last b (hcd.n ▸ hlast)
    obtain ⟨hd, -, -⟩ := d.pushByte_processes_last b hlast
    have hbuf : (c.pushByte b).buf = (d.pushByte b).buf := by
      rw [pushByte_buf, pushByte_buf]
      exact Vector.ext fun j hj => hcd.getElem_writeAt_n b hj (by omega)
    rw [hc, hd, hcd.h, hbuf]

theorem pushByte (hcd : c.SameTransaction d) (b : Byte) : (c.pushByte b).SameTransaction (d.pushByte b) := by
  constructor
  case h => exact hcd.pushByte_h b
  case filled =>
    intro j hj hjn
    have hle : j ≤ d.n.toNat := by
      rw [pushByte_n, BitVec.toNat_add] at hjn
      exact Nat.le_of_lt_succ (hjn.trans_le (Nat.mod_le _ _))
    simpa using hcd.getElem_writeAt_n b hj hle
  case string => simpa using hcd.string
  all_goals simp [hcd.n, hcd.len, hcd.hexv, hcd.fin]

/-- A buffer made of the bytes below N and of others from N on. -/
theorem ite_filled (hcd : c.SameTransaction d) {j : Nat} (hj : j < 64) (x : Byte) :
    (if j < c.n.toNat then c.buf[j] else x) = if j < d.n.toNat then d.buf[j] else x := by
  rw [hcd.n]
  exact ite_congr rfl (hcd.filled j hj) fun _ => rfl

theorem markedBuffer_last (hcd : c.SameTransaction d) : c.markedBuffer 63 = d.markedBuffer 63 := by
  refine Vector.ext fun j hj => ?_
  rw [getElem_markedBuffer, getElem_markedBuffer, if_pos (Nat.le_of_lt_succ hj), if_pos (Nat.le_of_lt_succ hj),
    hcd.ite_filled hj, hcd.n]

theorem finalize_buf (hcd : c.SameTransaction d) (le : Bool) : (c.finalize le).buf = (d.finalize le).buf := by
  refine Vector.ext fun j hj => ?_
  rw [getElem_finalize_buf, getElem_finalize_buf, hcd.ite_filled hj, hcd.n, hcd.len]

/-- FINAL writes BUF from N on, so the blocks it processes are the same. -/
theorem finalize_h (hcd : c.SameTransaction d) (le : Bool) : (c.finalize le).h = (d.finalize le).h := by
  have hpad : c.padZeros.h = d.padZeros.h := by
    by_cases hn : d.n.toNat < 56
    · rw [d.padZeros_h_fits hn, c.padZeros_h_fits (hcd.n ▸ hn), hcd.h]
    · have hn' : 56 ≤ d.n.toNat := Nat.not_lt.mp hn
      rw [d.padZeros_h_overflows hn', c.padZeros_h_overflows (hcd.n ▸ hn'), hcd.h, hcd.markedBuffer_last]
  rw [CoreState.finalize_h, CoreState.finalize_h, hpad, hcd.finalize_buf le]

theorem finalize (hcd : c.SameTransaction d) (le : Bool) : (c.finalize le).SameTransaction (d.finalize le) := by
  have hh := hcd.finalize_h le
  constructor
  case h => exact hh
  case string => exact fun _ => by rw [finalize_hex, finalize_hex, hh]
  all_goals simp [hcd.len]

theorem commandEffect (hcd : c.SameTransaction d) {i : Instr} (hi : i.inMessageMode = true) :
    (commandEffect i c).1.SameTransaction (commandEffect i d).1 ∧ (commandEffect i c).2 = (commandEffect i d).2 := by
  cases i with
  | init | block | ldb k b => cases hi
  | nop => exact ⟨hcd, rfl⟩
  | push b =>
    cases hfin : d.fin with
    | true =>
      rw [commandEffect_push_refused hfin, commandEffect_push_refused (hcd.fin.trans hfin)]
      exact ⟨hcd, rfl⟩
    | false =>
      rw [commandEffect_push hfin, commandEffect_push (hcd.fin.trans hfin)]
      exact ⟨hcd.pushByte b, rfl⟩
  | final le =>
    cases hfin : d.fin with
    | true =>
      rw [commandEffect_final_refused hfin, commandEffect_final_refused (hcd.fin.trans hfin)]
      exact ⟨hcd, rfl⟩
    | false =>
      rw [commandEffect_final hfin, commandEffect_final (hcd.fin.trans hfin)]
      exact ⟨hcd.finalize le, rfl⟩
  | digest le => exact ⟨hcd.digestOp le, rfl⟩
  | rdhex k =>
    cases hhexv : d.hexv with
    | true =>
      rw [commandEffect_rdhex hhexv, commandEffect_rdhex (hcd.hexv.trans hhexv), hexAt, hexAt, hcd.string hhexv]
      exact ⟨hcd, rfl⟩
    | false =>
      rw [commandEffect_rdhex_refused hhexv, commandEffect_rdhex_refused (hcd.hexv.trans hhexv)]
      exact ⟨hcd, rfl⟩
  | rdstat =>
    have hstatus : c.status = d.status := by simp only [status, hcd.hexv, hcd.fin, hcd.n]
    exact ⟨hcd, congrArg (Response.mk false) hstatus⟩

theorem responsesTo (hcd : c.SameTransaction d) {p : List Instr} (hp : ∀ i ∈ p, i.inMessageMode = true) :
    responsesTo p c = responsesTo p d := by
  induction p generalizing c d with
  | nil => rfl
  | cons i p ih =>
    obtain ⟨hi, hp⟩ := List.forall_mem_cons.mp hp
    obtain ⟨hcore, hresponse⟩ := hcd.commandEffect hi
    rw [Machine.responsesTo, Machine.responsesTo, hresponse, ih hcore hp]

end CoreState.SameTransaction

end Sys2Proof.Machine
end

section
/-! Raw mode with every block loaded whole (70_reset_and_hazards.md R175): a BLOCK then processes loaded bytes only. -/

namespace Sys2Proof.Machine

/-- Loads that name every index load some block, the one they leave in BUF. -/
theorem exists_loadsBlock {l : List (BitVec 6 × Byte)} (hl : namesEveryIndex l) : ∃ b, loadsBlock l b := by
  refine ⟨loadedBuffer l (Vector.replicate 64 0), fun i => ?_⟩
  obtain ⟨b, hb⟩ := hl i
  have hread := readAt_loadedBuffer l (Vector.replicate 64 0) i
  cases hlookup : l.reverse.lookup i with
  | none => exact absurd (List.lookup_eq_none_iff.mp hlookup (i, b) (List.mem_reverse.mpr hb)) (by simp)
  | some v =>
    rw [hlookup] at hread
    exact congrArg some hread.symm

namespace CoreState.SameTransaction

variable {c d : CoreState}

theorem blockProcess_setBuf (hcd : c.SameTransaction d) (b : Block) :
    (c.setBuf b).blockProcess.SameTransaction (d.setBuf b).blockProcess := by
  constructor
  case string => simpa using hcd.string
  all_goals simp [hcd.h, hcd.n, hcd.len, hcd.hexv, hcd.fin]

theorem coreAfter_flatMap_rawCommands (hcd : c.SameTransaction d) {loads : List (List (BitVec 6 × Byte))}
    (hloads : ∀ l ∈ loads, namesEveryIndex l) :
    (coreAfter (loads.flatMap rawCommands) c).SameTransaction (coreAfter (loads.flatMap rawCommands) d) := by
  induction loads generalizing c d with
  | nil => exact hcd
  | cons l loads ih =>
    obtain ⟨hl, hloads⟩ := List.forall_mem_cons.mp hloads
    obtain ⟨b, hb⟩ := exists_loadsBlock hl
    rw [List.flatMap_cons, coreAfter_append, coreAfter_append, coreAfter_rawCommands hb, coreAfter_rawCommands hb]
    exact ih (hcd.blockProcess_setBuf b) hloads

end CoreState.SameTransaction

end Sys2Proof.Machine
end

section
/-! Independence of transactions (70_reset_and_hazards.md R176), in both modes. -/

namespace Sys2Proof.Machine

theorem inMessageMode_of_isReading {i : Instr} (hi : i.isReading = true) : i.inMessageMode = true := by
  cases i with
  | nop | rdstat | rdhex k | digest le => rfl
  | init | push b | final le | block | ldb k b => cases hi

theorem responsesTo_init_message (c d : CoreState) {p : List Instr} (hp : ∀ i ∈ p, i.inMessageMode = true) :
    responsesTo (.init :: p) c = responsesTo (.init :: p) d := by
  have hstart := CoreState.SameTransaction.startTransaction c d
  simp only [responsesTo, commandEffect_init, hstart.responsesTo hp]

theorem responsesTo_init_raw (c d : CoreState) {loads : List (List (BitVec 6 × Byte))} {p : List Instr}
    (hloads : ∀ l ∈ loads, namesEveryIndex l) (hp : ∀ i ∈ p, i.isReading = true) :
    responsesTo (.init :: loads.flatMap rawCommands ++ p) c =
      responsesTo (.init :: loads.flatMap rawCommands ++ p) d := by
  have hloaded := (CoreState.SameTransaction.startTransaction c d).coreAfter_flatMap_rawCommands hloads
  simp only [List.cons_append, responsesTo, responsesTo_append, commandEffect_init, responsesTo_flatMap_rawCommands,
    hloaded.responsesTo fun i hi => inMessageMode_of_isReading (hp i hi)]

/-- Settles O50: a run's new responses are those to its commands, and INIT starts both cores on the same transaction. -/
theorem transactionsAreIndependent : Obligations.TransactionsAreIndependent := by
  unfold Obligations.TransactionsAreIndependent
  intro s₁ s₂ hresponses
  refine ⟨fun p hp => ?message, fun loads p hloads hp => ?raw⟩
  case message =>
    refine ⟨_, _, runCommands_eq decode_encode _ s₁, runCommands_eq decode_encode _ s₂, ?_⟩
    rw [hresponses, responsesTo_init_message s₁.core s₂.core hp]
  case raw =>
    refine ⟨_, _, runCommands_eq decode_encode _ s₁, runCommands_eq decode_encode _ s₂, ?_⟩
    rw [hresponses, responsesTo_init_raw s₁.core s₂.core hloads hp]

end Sys2Proof.Machine
end
